-- ==== Sys2Proof/Word.lean ====
section
/-! DEFINITION. Words of the unit: the widths that `spec/00_scope.md` R7 and `spec/30_encoding.md` R80 to R83 fix.
Nothing here computes; every operation on these words stands in `Sys2Proof/Machine/`. -/

namespace Sys2Proof

/-- A block: one unsigned 64-bit word of the block store (R7), also the width of `wdata` and `rdata` (R5). -/
abbrev Block := BitVec 64

/-- A 32-bit command word `cw` (R80). -/
abbrev CmdWord := BitVec 32

/-- A slot field `d` or `s` of a command word: 4 bits, unsigned (R81, R83). -/
abbrev SlotNo := BitVec 4

/-- A small operand field `a` or `b` of a command word: 8 bits, unsigned (R81, R83). -/
abbrev SmallOp := BitVec 8

/-- The block index field `idx` of a format X command word: 16 bits, unsigned (R82, R83). -/
abbrev BlockIdx := BitVec 16

/-- One entry of the support-list store: 8 bits (R38). -/
abbrev SupEntry := BitVec 8

end Sys2Proof
end

