-- ==== Sys2Proof/Syntax.lean ====
section
/-! DEFINITION. The 21 commands of the unit, one constructor per row of `spec/opcode_table.json` (`spec/30_encoding.md`
R84). A constructor holds exactly the fields of the command word that the command uses; `wdata` is no part of the command
word (R80) and is read from the command port when WRBLK or SHLI is performed. The pure forms of the document are pairs of
these commands (R92), not commands of their own. -/

namespace Sys2Proof

/-- A legal command word, read: the command and the fields it uses (R84). -/
inductive Instr where
  /-- `CREATE Td, n` (R101). -/
  | create (d : SlotNo) (n : SmallOp)
  /-- `DESTROY Td` (R103). -/
  | destroy (d : SlotNo)
  /-- `COPY Td, Ts` (R105). -/
  | copy (d src : SlotNo)
  /-- `RDBLK Td, idx` (R107). -/
  | rdblk (d : SlotNo) (idx : BlockIdx)
  /-- `WRBLK Td, idx, wdata` (R109). -/
  | wrblk (d : SlotNo) (idx : BlockIdx)
  /-- `RDSTAT` (R111). -/
  | rdstat
  /-- `RDNV Td` (R112). -/
  | rdnv (d : SlotNo)
  /-- `SUPCLR` (R114). -/
  | supclr
  /-- `SUPPUSH v` (R115). -/
  | suppush (v : SmallOp)
  /-- `RDSUP p` (R116). -/
  | rdsup (p : SmallOp)
  /-- `HASVAR Td, i` (R131). -/
  | hasvar (d : SlotNo) (v : SmallOp)
  /-- `COF0I Td, i` (R134). -/
  | cof0i (d : SlotNo) (v : SmallOp)
  /-- `COF1I Td, i` (R137). -/
  | cof1i (d : SlotNo) (v : SmallOp)
  /-- `SWAPADJI Td, i` (R151). -/
  | swapadji (d : SlotNo) (v : SmallOp)
  /-- `SWAPI Td, i, j` (R156). -/
  | swapi (d : SlotNo) (v w : SmallOp)
  /-- `FLIPI Td, i` (R163). -/
  | flipi (d : SlotNo) (v : SmallOp)
  /-- `MINBASEI Td` (R181). -/
  | minbasei (d : SlotNo)
  /-- `EXPANDI Td` (R185). -/
  | expandi (d : SlotNo)
  /-- `EXTFILL Td, Ts` (R196). -/
  | extfill (d src : SlotNo)
  /-- `NEXTI Td` (R211). -/
  | nexti (d : SlotNo)
  /-- `SHLI Td, shift` (R214). -/
  | shli (d : SlotNo)
deriving DecidableEq, Repr

end Sys2Proof
end

