-- ==== Sys2Proof/Decode.lean ====
section
/-! DEFINITION. The command word: its fields, the opcode table, the decoder and the encoder (`spec/30_encoding.md`).
Decoding is total (R88): every 32-bit word is one command with its fields, or is illegal for a named reason. The
slot-number condition of R86 depends on `NT`; a decoder applies it after the match (R89), and here `exec` does, in
`Machine/Ops.lean`. -/

namespace Sys2Proof

/-- `op`, bits 31:24 of a command word (R81, R82). -/
def opField (cw : CmdWord) : BitVec 8 := cw.extractLsb' 24 8

/-- `d`, bits 23:20 (R81, R82). -/
def dField (cw : CmdWord) : SlotNo := cw.extractLsb' 20 4

/-- `s`, bits 19:16 (R81, R82). -/
def sField (cw : CmdWord) : SlotNo := cw.extractLsb' 16 4

/-- `a`, bits 15:8 of a format V word (R81). -/
def aField (cw : CmdWord) : SmallOp := cw.extractLsb' 8 8

/-- `b`, bits 7:0 of a format V word (R81). -/
def bField (cw : CmdWord) : SmallOp := cw.extractLsb' 0 8

/-- `idx`, bits 15:0 of a format X word (R82). -/
def idxField (cw : CmdWord) : BlockIdx := cw.extractLsb' 0 16

/-- The rows of the opcode map (R84). -/
inductive Opcode where
  | create | destroy | copy | rdblk | wrblk | rdstat | rdnv | supclr | suppush | rdsup
  | hasvar | cof0i | cof1i
  | swapadji | swapi | flipi
  | minbasei | expandi
  | extfill
  | nexti | shli
deriving DecidableEq, Repr

/-- The 21 rows in the order of the opcode table. -/
def Opcode.all : List Opcode :=
  [.create, .destroy, .copy, .rdblk, .wrblk, .rdstat, .rdnv, .supclr, .suppush, .rdsup, .hasvar, .cof0i, .cof1i,
    .swapadji, .swapi, .flipi, .minbasei, .expandi, .extfill, .nexti, .shli]

/-- The value of `op` that spells the row (R84). -/
def Opcode.code : Opcode → BitVec 8
  | .create => 0x01
  | .destroy => 0x02
  | .copy => 0x03
  | .rdblk => 0x04
  | .wrblk => 0x05
  | .rdstat => 0x06
  | .rdnv => 0x07
  | .supclr => 0x08
  | .suppush => 0x09
  | .rdsup => 0x0A
  | .hasvar => 0x10
  | .cof0i => 0x11
  | .cof1i => 0x12
  | .swapadji => 0x20
  | .swapi => 0x21
  | .flipi => 0x22
  | .minbasei => 0x30
  | .expandi => 0x31
  | .extfill => 0x40
  | .nexti => 0x50
  | .shli => 0x51

/-- The `match` column of the opcode table (R89). -/
def Opcode.matchWord : Opcode → CmdWord
  | .create => 0x01000000
  | .destroy => 0x02000000
  | .copy => 0x03000000
  | .rdblk => 0x04000000
  | .wrblk => 0x05000000
  | .rdstat => 0x06000000
  | .rdnv => 0x07000000
  | .supclr => 0x08000000
  | .suppush => 0x09000000
  | .rdsup => 0x0A000000
  | .hasvar => 0x10000000
  | .cof0i => 0x11000000
  | .cof1i => 0x12000000
  | .swapadji => 0x20000000
  | .swapi => 0x21000000
  | .flipi => 0x22000000
  | .minbasei => 0x30000000
  | .expandi => 0x31000000
  | .extfill => 0x40000000
  | .nexti => 0x50000000
  | .shli => 0x51000000

/-- The `mask` column of the opcode table: `op` and every must-be-zero field (R85, R89). -/
def Opcode.mask : Opcode → CmdWord
  | .create => 0xFF0F00FF
  | .destroy => 0xFF0FFFFF
  | .copy => 0xFF00FFFF
  | .rdblk => 0xFF0F0000
  | .wrblk => 0xFF0F0000
  | .rdstat => 0xFFFFFFFF
  | .rdnv => 0xFF0FFFFF
  | .supclr => 0xFFFFFFFF
  | .suppush => 0xFFFF00FF
  | .rdsup => 0xFFFF00FF
  | .hasvar => 0xFF0F00FF
  | .cof0i => 0xFF0F00FF
  | .cof1i => 0xFF0F00FF
  | .swapadji => 0xFF0F00FF
  | .swapi => 0xFF0F0000
  | .flipi => 0xFF0F00FF
  | .minbasei => 0xFF0FFFFF
  | .expandi => 0xFF0FFFFF
  | .extfill => 0xFF00FFFF
  | .nexti => 0xFF0FFFFF
  | .shli => 0xFF0FFFFF

/-- The row whose opcode the value is, if there is one (R84, R87). -/
def Opcode.ofCode (op : BitVec 8) : Option Opcode :=
  Opcode.all.find? (fun o => o.code == op)

/-- The command of a row, with its fields taken from the word as they stand (R83, R84). -/
def Opcode.read (o : Opcode) (cw : CmdWord) : Instr :=
  match o with
  | .create => .create (dField cw) (aField cw)
  | .destroy => .destroy (dField cw)
  | .copy => .copy (dField cw) (sField cw)
  | .rdblk => .rdblk (dField cw) (idxField cw)
  | .wrblk => .wrblk (dField cw) (idxField cw)
  | .rdstat => .rdstat
  | .rdnv => .rdnv (dField cw)
  | .supclr => .supclr
  | .suppush => .suppush (aField cw)
  | .rdsup => .rdsup (aField cw)
  | .hasvar => .hasvar (dField cw) (aField cw)
  | .cof0i => .cof0i (dField cw) (aField cw)
  | .cof1i => .cof1i (dField cw) (aField cw)
  | .swapadji => .swapadji (dField cw) (aField cw)
  | .swapi => .swapi (dField cw) (aField cw) (bField cw)
  | .flipi => .flipi (dField cw) (aField cw)
  | .minbasei => .minbasei (dField cw)
  | .expandi => .expandi (dField cw)
  | .extfill => .extfill (dField cw) (sField cw)
  | .nexti => .nexti (dField cw)
  | .shli => .shli (dField cw)

/-- Why a word is illegal whatever `NT` is: its opcode is not in the map (R87), or a field its command does not use is not
zero (R85). -/
inductive DecodeError where
  | undefinedOpcode (op : BitVec 8)
  | reservedFieldNotZero (row : Opcode)
deriving DecidableEq, Repr

/-- The decoder (R88, R89): the row of the word's opcode, then the row's must-be-zero fields, then the fields it uses. -/
def decode (cw : CmdWord) : Except DecodeError Instr :=
  match Opcode.ofCode (opField cw) with
  | none => .error (.undefinedOpcode (opField cw))
  | some o => if cw &&& o.mask = o.matchWord then .ok (o.read cw) else .error (.reservedFieldNotZero o)

/-- A format V word from its fields, most significant first (R81). -/
def packV (op : BitVec 8) (d s : SlotNo) (a b : SmallOp) : CmdWord :=
  op ++ d ++ s ++ a ++ b

/-- A format X word from its fields, most significant first (R82). -/
def packX (op : BitVec 8) (d s : SlotNo) (idx : BlockIdx) : CmdWord :=
  op ++ d ++ s ++ idx

/-- The encoder: the one command word of a command, every field it does not use zero (R84, R85, R91). -/
def encode : Instr → CmdWord
  | .create d n => packV 0x01 d 0 n 0
  | .destroy d => packV 0x02 d 0 0 0
  | .copy d src => packV 0x03 d src 0 0
  | .rdblk d idx => packX 0x04 d 0 idx
  | .wrblk d idx => packX 0x05 d 0 idx
  | .rdstat => packV 0x06 0 0 0 0
  | .rdnv d => packV 0x07 d 0 0 0
  | .supclr => packV 0x08 0 0 0 0
  | .suppush v => packV 0x09 0 0 v 0
  | .rdsup p => packV 0x0A 0 0 p 0
  | .hasvar d v => packV 0x10 d 0 v 0
  | .cof0i d v => packV 0x11 d 0 v 0
  | .cof1i d v => packV 0x12 d 0 v 0
  | .swapadji d v => packV 0x20 d 0 v 0
  | .swapi d v w => packV 0x21 d 0 v w
  | .flipi d v => packV 0x22 d 0 v 0
  | .minbasei d => packV 0x30 d 0 0 0
  | .expandi d => packV 0x31 d 0 0 0
  | .extfill d src => packV 0x40 d src 0 0
  | .nexti d => packV 0x50 d 0 0 0
  | .shli d => packV 0x51 d 0 0 0

/-- The decoder on a row of the opcode table: a command is one 32-bit word, bit 0 its least significant bit (R12, R80),
and the bits of `w` at and above `nbits` are no part of it. -/
def decodeTableWord (nbits w : Nat) : Option Instr :=
  match decode (BitVec.ofNat 32 (w % 2 ^ nbits)) with
  | .ok i => some i
  | .error _ => none

end Sys2Proof
end

