-- ==== Sys2Proof/Config.lean ====
section
/-! DEFINITION. The open parameters of the unit (`spec/00_scope.md` R8 to R11; `spec/92_eei_decisions.md` D2, D3, D5):
`NMAX`, `NT` and `FIXED`. They are arguments of the model. A `Config` is carried by every state, no command and no reset
changes it (R260), and every statement about a state is a statement about every configuration that the state may carry.
The spec leaves no VALUE open besides these three (R265), so there is no free value in this model. -/

namespace Sys2Proof

/-- The parameters of one unit. Plain data: `FIXED` is the list of the flavours of slots 0, 1, ... -/
structure Config where
  /-- `NMAX`, the largest number of variables of a table (R8). -/
  nmax : Nat
  /-- `NT`, the number of table slots (R9). -/
  nt : Nat
  /-- `FIXED` (R10): entry `d` is the flavour of slot `d`; a slot past the end of the list is dynamic-arity. -/
  fixed : List (Option Nat)
deriving DecidableEq, Repr

/-- `FIXED(d)`: `none` for a dynamic-arity slot, `some f` for a slot of fixed arity `f` (R10). -/
def Config.fixedArity (c : Config) (d : SlotNo) : Option Nat :=
  c.fixed.getD d.toNat none

/-- `SUPCAP = NMAX`, the capacity of the support-list store (R11). -/
def Config.supcap (c : Config) : Nat :=
  c.nmax

/-- The ranges of the parameters: `NMAX <= 22` (R8), `1 <= NT <= 16` (R9), `FIXED(s) = some f` with `f <= NMAX` (R10).
A model refuses any other configuration (`spec/93_implementation_defined.md` U9, U10, U11). -/
def Config.valid (c : Config) : Bool :=
  decide (c.nmax ≤ 22) && decide (1 ≤ c.nt) && decide (c.nt ≤ 16) && c.fixed.all (fun o => o.all (fun f => decide (f ≤ c.nmax)))

/-- The configuration of the test vectors: `NMAX = 8`, `NT = 4`, every slot dynamic-arity
(`spec/95_test_vectors.md`, Conventions). DESIGN CHOICE (notes/assumptions/1.md): unsafe where a claim is made about
`State.reset` alone, because another unit has other parameters. -/
def Config.standard : Config :=
  { nmax := 8, nt := 4, fixed := [] }

end Sys2Proof
end

