-- ==== Sys2Proof/Machine/State.lean ====
section
/-! DEFINITION. The state of the unit (`spec/10_state.md`), plain data, and the model's own fields around it: the
parameters the unit was built with, the lines of the command port, and the host's side of a run. -/

namespace Sys2Proof.Machine

/-- A table value `(n, blk)`: its number of variables and its blocks, `blk[0]` first (R14, R31, R32). -/
structure Table where
  /-- `num_vars` (R31). -/
  n : Nat
  /-- The block sequence (R32); its length is `NB(n)` in every state the invariant of `Safety.lean` admits. -/
  blk : List Block
deriving DecidableEq, Repr

/-- A table slot: `EMPTY`, with no payload (R35), or `LIVE(n, blk)` (R30). -/
inductive Slot where
  | empty
  | live (t : Table)
deriving DecidableEq, Repr

/-- The block store: the table slots `T[0] .. T[NT-1]` in order. It is the unit's only memory (R60); it is held in the spec's
own shape, slots of 64-bit blocks, because nothing smaller than a block is addressable (R63, R64; notes/assumptions/4.md). -/
abbrev Memory := List Slot

/-- The cause of a recorded fault, codes 0 to 8 and no others (R231; `spec/93_implementation_defined.md` V4). -/
inductive Cause where
  /-- Code 0: no fault. -/
  | none
  /-- Code 1 (R233). -/
  | illegalCmd
  /-- Code 2 (R232). -/
  | slotEmpty
  /-- Code 3 (R234). -/
  | slotLive
  /-- Code 4 (R235). -/
  | arity
  /-- Code 5 (R237). -/
  | varRange
  /-- Code 6 (R238). -/
  | extendRange
  /-- Code 7 (R236). -/
  | blkRange
  /-- Code 8 (R239). -/
  | supRange
deriving DecidableEq, Repr

/-- A command as the host presents it: the command word and its data operand (R5, R80). -/
structure Command where
  cw : CmdWord
  wdata : Block
deriving DecidableEq, Repr

/-- What the host can do to the unit: present a command, or assert reset (R5, R260). -/
inductive Event where
  | command (c : Command)
  | reset
deriving DecidableEq, Repr

/-- The whole state. `slots` to `sup` are the unit's (R30 to R38); `cfg`, `cmd`, `rdata`, `pending` and `outputs` are the
model's own (notes/assumptions/1.md, 2.md and 3.md). -/
structure State where
  /-- The parameters `NMAX`, `NT`, `FIXED` of this unit (R8 to R10); nothing changes them. -/
  cfg : Config
  /-- The table slots `T[0] .. T[NT-1]`: the operand registers and, through their blocks, the only memory (R30, R60). -/
  slots : Memory
  /-- `R`, the 1-bit result flag (R36). -/
  r : Bool
  /-- `F`, 1 bit: the unit has faulted (R37). -/
  f : Bool
  /-- `CAUSE`, the 4-bit cause code (R37, R231). -/
  cause : Cause
  /-- `FCW`, the 32-bit command word that faulted (R37). -/
  fcw : CmdWord
  /-- `SUP[0 .. SUPLEN-1]`, the support-list store, a list of length `SUPLEN` (R38). -/
  sup : List SupEntry
  /-- The input lines of the command port: the command being performed, or the last one (R5). -/
  cmd : Command
  /-- The output lines of the command port: the last answer `rdata` (R5, R18). -/
  rdata : Block
  /-- What the host will do next, in order (R44). -/
  pending : List Event
  /-- The outputs of the run so far: one `rdata` per command, in order (R270). -/
  outputs : List Block
deriving DecidableEq, Repr

/-- Reasons for which the machine would stop with a fault. THERE IS NONE: a fault of the unit is an ordinary value of the
step, recorded in `f`, `cause` and `fcw` (R267), and every access to an address that does not exist is one of them
(R60, R61). Nobody raises a stop, which is safe: every command answers a next state (R268). -/
inductive Fault where
deriving DecidableEq, Repr

/-- Reasons for which the model gives no meaning. -/
inductive Refusal where
  /-- Raised by an arm of `exec` whose command has no meaning yet; no arm does so. Safe: nothing is claimed. -/
  | notModelled (mnemonic : String)
  /-- Raised by `step` alone, on a state whose parameters are outside the ranges of R8 to R10; the spec says that a model
  refuses such a configuration (`spec/93_implementation_defined.md` U9, U10, U11). Safe: no such unit exists. -/
  | illegalParameters
deriving DecidableEq, Repr

/-- The state right after reset of a unit with parameters `c` (R46, R260): every slot `EMPTY`, the flag, the fault record
and the support list clear. The port lines are zero and nothing is pending (notes/assumptions/2.md, 3.md). -/
def State.resetWith (c : Config) : State :=
  { cfg := c
    slots := List.replicate c.nt .empty
    r := false
    f := false
    cause := .none
    fcw := 0
    sup := []
    cmd := { cw := 0, wdata := 0 }
    rdata := 0
    pending := []
    outputs := [] }

/-- The state right after reset of the unit of the test vectors (R46; notes/assumptions/1.md). -/
def State.reset : State :=
  State.resetWith Config.standard

end Sys2Proof.Machine
end

