-- ==== Sys2Proof/Machine/Ops.lean ====
section
/-! DEFINITION. The named operations over slots, blocks and the fault record that every command is written with: the
pseudocode primitives of `spec/00_scope.md` R18, the derived functions of R13 to R15, fault entry (`spec/60_exceptions.md`
R240), the checks common to all commands (`spec/40_store_access.md` R100) and reset (`spec/70_reset_and_hazards.md` R260).
The unit has no return from a fault (R244): there is no operation for one. -/

namespace Sys2Proof.Machine

/-- The outcome of a command or a step. -/
abbrev Outcome := Host.Outcome State Fault Refusal

/-! ### Derived functions of an arity -/

/-- `NB(n)`, the number of blocks, `max(1, 2^(n-6))` (R13). -/
def NB (n : Nat) : Nat := 2 ^ (n - 6)

/-- `LEN(n) = 2^n`, the number of meaningful bits (R13). -/
def LEN (n : Nat) : Nat := 2 ^ n

/-- `LENMASK(n)`, the mask of the meaningful bits of block 0 (R13). -/
def lenMask (n : Nat) : Block :=
  if n < 6 then BitVec.ofNat 64 (2 ^ (2 ^ n) - 1) else BitVec.allOnes 64

/-! ### Table values -/

/-- Block `b` of a table, `t.blk[b]` (R14). A block index past the sequence is formed by no command (R61, R130). -/
def Table.block (t : Table) (b : Nat) : Block := t.blk.getD b 0

/-- `bit(t, k) = t.blk[k >> 6][k & 63]` (R14). -/
def Table.bit (t : Table) (k : Nat) : Bool := (t.block (k / 64)).getLsbD (k % 64)

/-- `t.blk[b] <- w`: one block of a table replaced (R18). -/
def Table.setBlock (t : Table) (b : Nat) (w : Block) : Table :=
  { t with blk := t.blk.set b w }

/-- The all-zero table of `n` variables (R101). -/
def Table.zero (n : Nat) : Table :=
  { n := n, blk := List.replicate (NB n) 0 }

/-- Every block rewritten by itself: the shape of the in-word regimes (R130). -/
def Table.mapWords (t : Table) (g : Block → Block) : Table :=
  { t with blk := t.blk.map g }

/-- The whole block sequence computed anew from the blocks before the command, block `b` by `g b` (R69, R264). -/
def Table.rebuild (t : Table) (g : Nat → Block) : Table :=
  { t with blk := (List.range (NB t.n)).map g }

/-- The value of a block sequence read as one unsigned integer, least-significant block first (R15). -/
def blocksVal : List Block → Nat
  | [] => 0
  | w :: ws => w.toNat + 2 ^ 64 * blocksVal ws

/-- `VAL(t)` (R15). -/
def Table.val (t : Table) : Nat := blocksVal t.blk

/-- `TBL(n, v)`, the table of arity `n` with value `v` (R15). -/
def tbl (n v : Nat) : Table :=
  { n := n, blk := (List.range (NB n)).map (fun b => BitVec.ofNat 64 (v >>> (64 * b))) }

/-- A table value is well formed: it has `NB(n)` blocks, and the masking invariant holds (R14, R32, R33). This is the one
canonical form of a table: equal tables are equal data (R17). -/
def Table.wf (t : Table) : Bool :=
  decide (t.blk.length = NB t.n) && decide (t.n < 6 → t.block 0 &&& ~~~ lenMask t.n = 0)

/-- Slot `d` holds no table, or a well-formed table whose arity the unit and the slot's flavour allow (R10, R14, R31). -/
def Slot.wf (c : Config) (d : Nat) : Slot → Bool
  | .empty => true
  | .live t => t.wf && decide (t.n ≤ c.nmax) && (c.fixed.getD d none).all (fun f => t.n == f)

/-- The canonical form of the block store: `NT` slots, each well formed (R30). Equal stores are equal data. -/
def Memory.wf (c : Config) (m : Memory) : Bool :=
  decide (m.length = c.nt) && (List.range c.nt).all (fun d => Slot.wf c d (m.getD d .empty))

/-! ### Slots -/

/-- Slot `d` exists (R86). -/
def State.hasSlot (s : State) (d : SlotNo) : Bool := decide (d.toNat < s.cfg.nt)

/-- `T[d]` (R18). A slot that does not exist is read by no command (R86); it holds no table. -/
def State.slot (s : State) (d : SlotNo) : Slot := s.slots.getD d.toNat .empty

/-- `T[d] <- v`: replaces the whole slot state (R18). -/
def State.setSlot (s : State) (d : SlotNo) (v : Slot) : State :=
  { s with slots := s.slots.set d.toNat v }

/-- `T[d] <- LIVE(t)` (R18). -/
def State.setTable (s : State) (d : SlotNo) (t : Table) : State :=
  s.setSlot d (.live t)

/-- `MemRead((d, b), 8)`: the block at address `(d, b)`, where the address exists (R18, R60, R63). -/
def State.memRead (s : State) (d : SlotNo) (b : Nat) : Option Block :=
  match s.slot d with
  | .empty => none
  | .live t => if b < NB t.n then some (t.block b) else none

/-- Byte `y` of the block at `(d, b)`, its bits `8y+7 : 8y`, little-endian: a naming convention (R64). -/
def State.readByte (s : State) (d : SlotNo) (b y : Nat) : Option (BitVec 8) :=
  (s.memRead d b).map (fun w => w.extractLsb' (8 * y) 8)

/-- `MemWrite((d, b), 8, w)`: the block at an address that exists is replaced (R18, R63); elsewhere nothing happens. -/
def State.memWrite (s : State) (d : SlotNo) (b : Nat) (w : Block) : State :=
  match s.slot d with
  | .empty => s
  | .live t => s.setTable d (t.setBlock b w)

/-! ### Answers and faults -/

/-- `rdata <- v`: the 64-bit answer of the command (R18). -/
def answer (v : Block) (s : State) : State :=
  { s with rdata := v }

/-- FAULT ENTRY, `raise Fault(c)` (R240): the fault flag, the cause and the command word are recorded, the answer is 0,
and nothing else changes. -/
def raise (c : Cause) (s : State) : State :=
  { s with f := true, cause := c, fcw := s.cmd.cw, rdata := 0 }

/-- A command word met in the faulted state is ignored: no state changes and the answer is 0 (R243). -/
def ignore (s : State) : State :=
  answer 0 s

/-! ### Checks -/

/-- A numbered check of a command: `k` where it holds, else `raise Fault(c)` (R100). -/
def require (ok : Bool) (c : Cause) (s k : State) : State :=
  if ok then k else raise c s

/-- The check `T[d]` is `LIVE`, else `SLOT_EMPTY` (R232); the command goes on with the table. -/
def onLive (d : SlotNo) (s : State) (k : Table → State) : State :=
  match s.slot d with
  | .empty => raise .slotEmpty s
  | .live t => k t

/-- The check `T[d]` is `EMPTY`, else `SLOT_LIVE` (R234). -/
def onEmpty (d : SlotNo) (s k : State) : State :=
  match s.slot d with
  | .empty => k
  | .live _ => raise .slotLive s

/-- The two checks common to all commands, in their order, then the command's own rule `k` (R100, R241): in the faulted
state the command is ignored (R243); a command that names a slot that does not exist is illegal (R86, R233). `ds` are the
slots the command names. -/
def perform (ds : List SlotNo) (s k : State) : Outcome :=
  .next (if s.f then ignore s else if ds.all s.hasSlot then k else raise .illegalCmd s)

/-- A word that is no command whatever `NT` is (R85, R87): ignored in the faulted state (R243), else `ILLEGAL_CMD` (R233). -/
def performIllegal (s : State) : Outcome :=
  .next (if s.f then ignore s else raise .illegalCmd s)

/-! ### Reset -/

/-- Reset, asserted by the host from outside the command stream, from any state (R260). What the host still has to do and
the outputs already given are the host's, not the unit's, and stay. -/
def applyReset (s : State) : State :=
  { State.resetWith s.cfg with pending := s.pending, outputs := s.outputs }

end Sys2Proof.Machine
end

