-- ==== Sys2Proof/Machine/Operands.lean ====
section
/-! DEFINITION. The operand forms (`spec/30_encoding.md` R80 to R83). Every field is an unsigned number used as it stands:
no sign extension, no scaling, no offset. A slot field is the slot number itself. -/

namespace Sys2Proof.Machine

/-- A small operand as a variable index, 0 to 255 (R83). -/
def varIndex (a : SmallOp) : Nat := a.toNat

/-- A small operand as an arity (R83). -/
def arityOperand (a : SmallOp) : Nat := a.toNat

/-- A small operand as a position of the support list (R83). -/
def supPosition (a : SmallOp) : Nat := a.toNat

/-- A small operand as a value of the support list, stored as given (R83, R115). -/
def supValue (a : SmallOp) : SupEntry := a

/-- A block index, 0 to 65535 (R82, R83). -/
def blockIndex (idx : BlockIdx) : Nat := idx.toNat

/-- `wdata` as the block value of WRBLK (R80, R109). -/
def blockOperand (s : State) : Block := s.cmd.wdata

/-- `wdata` as the shift amount of SHLI, 0 to `2^64 - 1` (R80, R214). -/
def shiftOperand (s : State) : Nat := s.cmd.wdata.toNat

/-- `zext_64(v)` of a number (R18): every number a command answers is below `2^64`. -/
def zext64 (v : Nat) : Block := BitVec.ofNat 64 v

end Sys2Proof.Machine
end

