-- ==== Sys2Proof/Machine/Flags.lean ====
section
/-! DEFINITION. The flags and the status register (`spec/10_state.md` R36 to R39; `spec/60_exceptions.md` R231). -/

namespace Sys2Proof.Machine

/-- The cause code, the value of `CAUSE` (R231). -/
def Cause.code : Cause → BitVec 4
  | .none => 0
  | .illegalCmd => 1
  | .slotEmpty => 2
  | .slotLive => 3
  | .arity => 4
  | .varRange => 5
  | .extendRange => 6
  | .blkRange => 7
  | .supRange => 8

/-- `SUPLEN` (R38). -/
def State.suplen (s : State) : Nat := s.sup.length

/-- `R <- v` (R36). -/
def State.setR (s : State) (v : Bool) : State := { s with r := v }

/-- `SUP`, `SUPLEN` replaced whole (R38). -/
def State.setSup (s : State) (l : List SupEntry) : State := { s with sup := l }

/-- A flag as the 64-bit answer `zext_64(R)` (R131). -/
def flagWord (v : Bool) : Block := zext64 v.toNat

/-- `STATUS`, the 64-bit read-only view of the flags (R39): from the top `FCW`, zeros, `SUPLEN`, `CAUSE`, zeros, `F`, `R`. -/
def State.status (s : State) : Block :=
  s.fcw ++ (0 : BitVec 16) ++ BitVec.ofNat 8 s.suplen ++ s.cause.code ++ (0 : BitVec 2) ++ BitVec.ofBool s.f ++ BitVec.ofBool s.r

end Sys2Proof.Machine
end

