-- ==== Sys2Proof/Machine/Masks.lean ====
section
/-! DEFINITION. The mask tables, constants and no state (`spec/10_state.md` R40 to R42). -/

namespace Sys2Proof.Machine

/-- `PROJ[i]`, the positions of a word where variable `i` is 1, for `i` in 0 to 5 (R41). -/
def proj : Nat → Block
  | 0 => 0xAAAAAAAAAAAAAAAA
  | 1 => 0xCCCCCCCCCCCCCCCC
  | 2 => 0xF0F0F0F0F0F0F0F0
  | 3 => 0xFF00FF00FF00FF00
  | 4 => 0xFFFF0000FFFF0000
  | 5 => 0xFFFFFFFF00000000
  | _ => 0

/-- `NPROJ[i]`, the positions of a word where variable `i` is 0, for `i` in 0 to 5 (R41). -/
def nproj : Nat → Block
  | 0 => 0x5555555555555555
  | 1 => 0x3333333333333333
  | 2 => 0x0F0F0F0F0F0F0F0F
  | 3 => 0x00FF00FF00FF00FF
  | 4 => 0x0000FFFF0000FFFF
  | 5 => 0x00000000FFFFFFFF
  | _ => 0

/-- The three words of a per-pair mask (R42). -/
structure PairMask where
  stay : Block
  up : Block
  down : Block
deriving DecidableEq, Repr

/-- `PPERM[i][j]` for `0 <= i < j <= 5` (R42). The table has no other row, and no command asks for one. -/
def pperm : Nat → Nat → PairMask
  | 0, 1 => ⟨0x9999999999999999, 0x2222222222222222, 0x4444444444444444⟩
  | 0, 2 => ⟨0xA5A5A5A5A5A5A5A5, 0x0A0A0A0A0A0A0A0A, 0x5050505050505050⟩
  | 0, 3 => ⟨0xAA55AA55AA55AA55, 0x00AA00AA00AA00AA, 0x5500550055005500⟩
  | 0, 4 => ⟨0xAAAA5555AAAA5555, 0x0000AAAA0000AAAA, 0x5555000055550000⟩
  | 0, 5 => ⟨0xAAAAAAAA55555555, 0x00000000AAAAAAAA, 0x5555555500000000⟩
  | 1, 2 => ⟨0xC3C3C3C3C3C3C3C3, 0x0C0C0C0C0C0C0C0C, 0x3030303030303030⟩
  | 1, 3 => ⟨0xCC33CC33CC33CC33, 0x00CC00CC00CC00CC, 0x3300330033003300⟩
  | 1, 4 => ⟨0xCCCC3333CCCC3333, 0x0000CCCC0000CCCC, 0x3333000033330000⟩
  | 1, 5 => ⟨0xCCCCCCCC33333333, 0x00000000CCCCCCCC, 0x3333333300000000⟩
  | 2, 3 => ⟨0xF00FF00FF00FF00F, 0x00F000F000F000F0, 0x0F000F000F000F00⟩
  | 2, 4 => ⟨0xF0F00F0FF0F00F0F, 0x0000F0F00000F0F0, 0x0F0F00000F0F0000⟩
  | 2, 5 => ⟨0xF0F0F0F00F0F0F0F, 0x00000000F0F0F0F0, 0x0F0F0F0F00000000⟩
  | 3, 4 => ⟨0xFF0000FFFF0000FF, 0x0000FF000000FF00, 0x00FF000000FF0000⟩
  | 3, 5 => ⟨0xFF00FF0000FF00FF, 0x00000000FF00FF00, 0x00FF00FF00000000⟩
  | 4, 5 => ⟨0xFFFF00000000FFFF, 0x00000000FFFF0000, 0x0000FFFF00000000⟩
  | _, _ => ⟨0, 0, 0⟩

/-- `PERM[i] = PPERM[i][i+1]`, for `i` in 0 to 4 (R42). -/
def perm (i : Nat) : PairMask := pperm i (i + 1)

/-- `SH(i, j) = 2^j - 2^i` (R42). -/
def shiftDist (i j : Nat) : Nat := 2 ^ j - 2 ^ i

/-- `2^(i-6)`, the distance in blocks of the two halves of block variable `i` (R130). -/
def stride (i : Nat) : Nat := 2 ^ (i - 6)

/-- The value of block variable `i` at block index `b`: bit `i-6` of `b`, that is, whether `b` lies in the upper `stride i`
blocks of its group of `2 * stride i` blocks (R14, R130). -/
def blockVar (i b : Nat) : Bool := b.testBit (i - 6)

/-- One interleave pass over a word: the `stay` bits stay, the `up` bits move up and the `down` bits move down by `sh`
(R153, R159). -/
def interleave (m : PairMask) (sh : Nat) (w : Block) : Block :=
  (w &&& m.stay) ||| ((w &&& m.up) <<< sh) ||| ((w &&& m.down) >>> sh)

end Sys2Proof.Machine
end

