-- ==== Sys2Proof/Machine/Cofactor.lean ====
section
/-! DEFINITION. The cofactor engine: HASVAR, COF0I, COF1I (`spec/41_cofactor.md`), by the word algorithms of R133, R136 and
R139. A block algorithm is written as the new block sequence as a function of the old one (R69, R264). -/

namespace Sys2Proof.Machine

/-- The in-word test of R133: the half of the word with variable `i` = 1, brought down, differs from the half with it = 0. -/
def wordDepends (i : Nat) (w : Block) : Bool :=
  ((w >>> 2 ^ i) &&& nproj i) != (w &&& nproj i)

/-- `DEP(t, i)` by the word algorithm (R133). -/
def Table.hasVar (t : Table) (i : Nat) : Bool :=
  if i < 6 then
    (List.range (NB t.n)).any (fun b => wordDepends i (t.block b))
  else
    (List.range (NB t.n)).any (fun b => !blockVar i b && t.block b != t.block (b + stride i))

/-- The in-word pass of COF0I (R136). -/
def wordCof0 (i : Nat) (w : Block) : Block :=
  (w &&& nproj i) ||| ((w &&& nproj i) <<< 2 ^ i)

/-- `COF0(t, i)` by the word algorithm (R136): in every group the low `stride` blocks are copied over the high ones. -/
def Table.cof0 (t : Table) (i : Nat) : Table :=
  if i < 6 then
    t.mapWords (wordCof0 i)
  else
    t.rebuild (fun b => if blockVar i b then t.block (b - stride i) else t.block b)

/-- The in-word pass of COF1I (R139). -/
def wordCof1 (i : Nat) (w : Block) : Block :=
  (w &&& proj i) ||| ((w &&& proj i) >>> 2 ^ i)

/-- `COF1(t, i)` by the word algorithm (R139): in every group the high `stride` blocks are copied over the low ones. -/
def Table.cof1 (t : Table) (i : Nat) : Table :=
  if i < 6 then
    t.mapWords (wordCof1 i)
  else
    t.rebuild (fun b => if blockVar i b then t.block b else t.block (b + stride i))

/-- `HASVAR Td, i` (R131). -/
def execHasvar (d : SlotNo) (a : SmallOp) (s : State) : Outcome :=
  perform [d] s <|
    onLive d s fun t =>
      require (decide (varIndex a < t.n)) .varRange s <|
        answer (flagWord (t.hasVar (varIndex a))) (s.setR (t.hasVar (varIndex a)))

/-- `COF0I Td, i` (R134). -/
def execCof0i (d : SlotNo) (a : SmallOp) (s : State) : Outcome :=
  perform [d] s <|
    onLive d s fun t =>
      require (decide (varIndex a < t.n)) .varRange s <|
        answer 0 (s.setTable d (t.cof0 (varIndex a)))

/-- `COF1I Td, i` (R137). -/
def execCof1i (d : SlotNo) (a : SmallOp) (s : State) : Outcome :=
  perform [d] s <|
    onLive d s fun t =>
      require (decide (varIndex a < t.n)) .varRange s <|
        answer 0 (s.setTable d (t.cof1 (varIndex a)))

end Sys2Proof.Machine
end

