-- ==== Sys2Proof/Machine/Extend.lean ====
section
/-! DEFINITION. The resize/broadcast engine: EXTFILL (`spec/44_extend.md`). -/

namespace Sys2Proof.Machine

/-- The self-doubling of a small source of arity `m` until it covers `min(6, tn)` variables (R198). -/
def doubled (m tn : Nat) (w : Block) : Block :=
  (List.range' m (min 6 tn - m)).foldl (fun x v => x ||| (x <<< 2 ^ v)) w

/-- `EXT(tn, t)` by the word algorithms for a small (R198) and a large (R199) source. -/
def Table.extend (t : Table) (tn : Nat) : Table :=
  if t.n < 6 then
    { n := tn, blk := List.replicate (NB tn) (doubled t.n tn (t.block 0)) }
  else
    { n := tn, blk := (List.range (NB tn)).map (fun b => t.block (b % NB t.n)) }

/-- `EXTFILL Td, Ts` (R196). The destination's arity is the target, and stays. -/
def execExtfill (d src : SlotNo) (s : State) : Outcome :=
  perform [d, src] s <|
    onLive d s fun u =>
      onLive src s fun t =>
        require (decide (t.n ≤ u.n)) .extendRange s <|
          answer 0 (s.setTable d (t.extend u.n))

end Sys2Proof.Machine
end

