-- ==== Sys2Proof/Machine/Permutation.lean ====
section
/-! DEFINITION. The permutation engine: SWAPADJI, SWAPI, FLIPI (`spec/42_permutation.md`), by the word algorithms of R153 to
R155, R158 to R161, R165 and R166. A block algorithm is written as the new block sequence as a function of the old one
(R69, R264). -/

namespace Sys2Proof.Machine

/-! ### SWAPADJI -/

/-- Regime (b), `i = 5` (R154): the high half of an even block changes places with the low half of the odd block above it. -/
def Table.swapMidpoint (t : Table) : Table :=
  t.rebuild (fun b =>
    if b % 2 = 0 then
      (t.block b &&& 0x00000000FFFFFFFF) ||| ((t.block (b + 1) &&& 0x00000000FFFFFFFF) <<< 32)
    else
      (t.block (b - 1) >>> 32) ||| (t.block b &&& 0xFFFFFFFF00000000))

/-- Regime (c), `i >= 6` (R155): in every group of `4 * stride` blocks the second quarter changes places with the third. -/
def Table.swapQuarters (t : Table) (i : Nat) : Table :=
  t.rebuild (fun b =>
    if blockVar i b && !blockVar (i + 1) b then t.block (b + stride i)
    else if !blockVar i b && blockVar (i + 1) b then t.block (b - stride i)
    else t.block b)

/-- `SWAPADJ(t, i)`: three disjoint regimes selected by `i` (R151, R153, R154, R155). -/
def Table.swapAdj (t : Table) (i : Nat) : Table :=
  if i < 5 then t.mapWords (interleave (perm i) (2 ^ i))
  else if i = 5 then t.swapMidpoint
  else t.swapQuarters i

/-! ### SWAPI -/

/-- Both in-word, `i < j < 6` (R159). -/
def Table.swapInWord (t : Table) (i j : Nat) : Table :=
  t.mapWords (interleave (pperm i j) (shiftDist i j))

/-- Straddling, `i < 6 <= j` (R160): the bits of a low block with variable `i` = 1 change places with the bits of the block
`stride j` above it with variable `i` = 0. -/
def Table.swapStraddle (t : Table) (i j : Nat) : Table :=
  t.rebuild (fun b =>
    if blockVar j b then
      (t.block b &&& proj i) ||| ((t.block (b - stride j) &&& proj i) >>> 2 ^ i)
    else
      (t.block b &&& nproj i) ||| ((t.block (b + stride j) &&& nproj i) <<< 2 ^ i))

/-- Both block variables, `6 <= i < j` (R161): the blocks with variable `i` = 1 and `j` = 0 change places with those with
`i` = 0 and `j` = 1; the two lie `stride j - stride i` apart. -/
def Table.swapBlocks (t : Table) (i j : Nat) : Table :=
  t.rebuild (fun b =>
    if blockVar i b && !blockVar j b then t.block (b + stride j - stride i)
    else if !blockVar i b && blockVar j b then t.block (b + stride i - stride j)
    else t.block b)

/-- The three regimes of a pair with `i < j` (R158). -/
def Table.swapOrdered (t : Table) (i j : Nat) : Table :=
  if j < 6 then t.swapInWord i j
  else if i < 6 then t.swapStraddle i j
  else t.swapBlocks i j

/-- `SWAP(t, i, j)`: nothing for `i = j`, else the pair normalised so that `i < j` and its regime (R158). -/
def Table.swap (t : Table) (i j : Nat) : Table :=
  if i = j then t
  else if i < j then t.swapOrdered i j
  else t.swapOrdered j i

/-! ### FLIPI -/

/-- The in-word pass of FLIPI: the two halves of the word, `2^i` apart, change places (R165). -/
def wordFlip (i : Nat) (w : Block) : Block :=
  ((w <<< 2 ^ i) &&& proj i) ||| ((w >>> 2 ^ i) &&& nproj i)

/-- `FLIP(t, i)` by the word algorithm (R165, R166). -/
def Table.flip (t : Table) (i : Nat) : Table :=
  if i < 6 then
    t.mapWords (wordFlip i)
  else
    t.rebuild (fun b => if blockVar i b then t.block (b - stride i) else t.block (b + stride i))

/-! ### The commands -/

/-- `SWAPADJI Td, i` (R151); `i + 1` is computed without wrapping (R19). -/
def execSwapadji (d : SlotNo) (a : SmallOp) (s : State) : Outcome :=
  perform [d] s <|
    onLive d s fun t =>
      require (decide (varIndex a + 1 < t.n)) .varRange s <|
        answer 0 (s.setTable d (t.swapAdj (varIndex a)))

/-- `SWAPI Td, i, j` (R156). -/
def execSwapi (d : SlotNo) (a b : SmallOp) (s : State) : Outcome :=
  perform [d] s <|
    onLive d s fun t =>
      require (decide (varIndex a < t.n) && decide (varIndex b < t.n)) .varRange s <|
        answer 0 (s.setTable d (t.swap (varIndex a) (varIndex b)))

/-- `FLIPI Td, i` (R163). -/
def execFlipi (d : SlotNo) (a : SmallOp) (s : State) : Outcome :=
  perform [d] s <|
    onLive d s fun t =>
      require (decide (varIndex a < t.n)) .varRange s <|
        answer 0 (s.setTable d (t.flip (varIndex a)))

end Sys2Proof.Machine
end

