-- ==== Sys2Proof/Machine/ShiftEnum.lean ====
section
/-! DEFINITION. The shift and enumeration engine: NEXTI, SHLI (`spec/45_shift_enum.md`). -/

namespace Sys2Proof.Machine

/-- 1 added to a block sequence: a block carries into the next exactly when it wraps to 0, and the carry out of the last
block is dropped (R212). -/
def incBlocks : List Block → List Block
  | [] => []
  | w :: ws => if w + 1 = 0 then (w + 1) :: incBlocks ws else (w + 1) :: ws

/-- Block 0 masked with `LENMASK(n)` (R33). -/
def Table.maskFirst (t : Table) : Table :=
  t.setBlock 0 (t.block 0 &&& lenMask t.n)

/-- The successor of a table by the word algorithm (R212). -/
def Table.next (t : Table) : Table :=
  if t.n ≤ 6 then Table.maskFirst { t with blk := incBlocks t.blk } else { t with blk := incBlocks t.blk }

/-- The single-word regime of SHLI, `n <= 6` (R215). -/
def Table.shlWord (t : Table) (shift : Nat) : Table :=
  t.setBlock 0 (if 64 ≤ shift then 0 else (t.block 0 <<< shift) &&& lenMask t.n)

/-- Block `b` of the multi-block regime of SHLI (R217): the low `64-rem` bits of the source block shifted up, with the high
`rem` bits of the next lower block, where there is one; zeros in the vacated low blocks. -/
def shlBlock (t : Table) (div rem b : Nat) : Block :=
  if b < div then 0
  else if rem ≠ 0 ∧ 1 ≤ b - div then (t.block (b - div) <<< rem) ||| (t.block (b - div - 1) >>> (64 - rem))
  else t.block (b - div) <<< rem

/-- The table shifted toward higher indices, by the regimes of R215, R216 and R217. -/
def Table.shl (t : Table) (shift : Nat) : Table :=
  if t.n ≤ 6 then t.shlWord shift
  else if LEN t.n ≤ shift then t.rebuild (fun _ => 0)
  else t.rebuild (shlBlock t (shift / 64) (shift % 64))

/-- `NEXTI Td` (R211). -/
def execNexti (d : SlotNo) (s : State) : Outcome :=
  perform [d] s <|
    onLive d s fun t =>
      answer 0 (s.setTable d t.next)

/-- `SHLI Td, shift` (R214). -/
def execShli (d : SlotNo) (s : State) : Outcome :=
  perform [d] s <|
    onLive d s fun t =>
      answer 0 (s.setTable d (t.shl (shiftOperand s)))

end Sys2Proof.Machine
end

