-- ==== Sys2Proof/Machine/StoreAccess.lean ====
section
/-! DEFINITION. The block store commands: lifecycle, block access, status and support-list access
(`spec/40_store_access.md`). -/

namespace Sys2Proof.Machine

/-- The arities a fixed-arity or dynamic-arity slot accepts from a table that exists: check (3) of COPY (R105). -/
def flavourAccepts (s : State) (d : SlotNo) (n : Nat) : Bool :=
  (s.cfg.fixedArity d).all (fun f => n == f)

/-- Check (2) of CREATE: `n <= NMAX`, and `n = f` in a slot of fixed arity `f` (R101). -/
def arityAccepted (s : State) (d : SlotNo) (n : Nat) : Bool :=
  decide (n ≤ s.cfg.nmax) && flavourAccepts s d n

/-- `CREATE Td, n` (R101). -/
def execCreate (d : SlotNo) (a : SmallOp) (s : State) : Outcome :=
  perform [d] s <|
    onEmpty d s <|
      require (arityAccepted s d (arityOperand a)) .arity s <|
        answer 0 (s.setTable d (Table.zero (arityOperand a)))

/-- `DESTROY Td` (R103). -/
def execDestroy (d : SlotNo) (s : State) : Outcome :=
  perform [d] s <|
    onLive d s fun _ =>
      answer 0 (s.setSlot d .empty)

/-- `COPY Td, Ts` (R105). -/
def execCopy (d src : SlotNo) (s : State) : Outcome :=
  perform [d, src] s <|
    onLive src s fun t =>
      onEmpty d s <|
        require (flavourAccepts s d t.n) .arity s <|
          answer 0 (s.setTable d t)

/-- `RDBLK Td, idx` (R107). -/
def execRdblk (d : SlotNo) (idx : BlockIdx) (s : State) : Outcome :=
  perform [d] s <|
    onLive d s fun t =>
      require (decide (blockIndex idx < NB t.n)) .blkRange s <|
        answer (t.block (blockIndex idx)) s

/-- `WRBLK Td, idx, wdata` (R109). -/
def execWrblk (d : SlotNo) (idx : BlockIdx) (s : State) : Outcome :=
  perform [d] s <|
    onLive d s fun t =>
      require (decide (blockIndex idx < NB t.n)) .blkRange s <|
        answer 0 (s.memWrite d (blockIndex idx) (blockOperand s &&& lenMask t.n))

/-- `RDSTAT` (R111). It is the one command that is performed in the faulted state too (R243), and it has no check. -/
def execRdstat (s : State) : Outcome :=
  .next (answer s.status s)

/-- `RDNV Td` (R112). -/
def execRdnv (d : SlotNo) (s : State) : Outcome :=
  perform [d] s <|
    onLive d s fun t =>
      answer (zext64 t.n) s

/-- `SUPCLR` (R114). -/
def execSupclr (s : State) : Outcome :=
  perform [] s <|
    answer 0 (s.setSup [])

/-- `SUPPUSH v` (R115). -/
def execSuppush (a : SmallOp) (s : State) : Outcome :=
  perform [] s <|
    require (decide (s.suplen < s.cfg.supcap)) .supRange s <|
      answer 0 (s.setSup (s.sup ++ [supValue a]))

/-- `RDSUP p` (R116). -/
def execRdsup (a : SmallOp) (s : State) : Outcome :=
  perform [] s <|
    require (decide (supPosition a < s.suplen)) .supRange s <|
      answer (zext64 (s.sup.getD (supPosition a) 0).toNat) s

end Sys2Proof.Machine
end

