-- ==== Sys2Proof/Machine/SupportMin.lean ====
section
/-! DEFINITION. The support-minimization engine: MINBASEI, EXPANDI (`spec/43_support_min.md`). -/

namespace Sys2Proof.Machine

/-- One turn of MINBASEI's scan, at index `i` (R181). The state of the scan is the table as it is now and the support list
so far; `k` equals the length of the list throughout. -/
def minBaseTurn (acc : Table × List SupEntry) (i : Nat) : Table × List SupEntry :=
  if acc.1.hasVar i then
    (if acc.2.length < i then acc.1.swap acc.2.length i else acc.1, acc.2 ++ [BitVec.ofNat 8 i])
  else acc

/-- MINBASEI's scan over the variable indices, ascending (R181): the table after it, and the new support list. -/
def Table.minBase (t : Table) : Table × List SupEntry :=
  (List.range t.n).foldl minBaseTurn (t, [])

/-- EXPANDI's swaps, from the last position of the list to the first (R185). -/
def Table.expand (t : Table) (sup : List SupEntry) : Table :=
  sup.zipIdx.foldr (fun e u => u.swap e.2 e.1.toNat) t

/-- Check (2) of EXPANDI: every swap it will perform is legal (R185). -/
def expandLegal (t : Table) (sup : List SupEntry) : Bool :=
  decide (sup.length ≤ t.n) && sup.all (fun v => decide (v.toNat < t.n))

/-- `MINBASEI Td` (R181). -/
def execMinbasei (d : SlotNo) (s : State) : Outcome :=
  perform [d] s <|
    onLive d s fun t =>
      answer (zext64 t.minBase.2.length) ((s.setTable d t.minBase.1).setSup t.minBase.2)

/-- `EXPANDI Td` (R185). -/
def execExpandi (d : SlotNo) (s : State) : Outcome :=
  perform [d] s <|
    onLive d s fun t =>
      require (expandLegal t s.sup) .varRange s <|
        answer 0 (s.setTable d (t.expand s.sup))

end Sys2Proof.Machine
end

