-- ==== Sys2Proof/Machine/Dispatch.lean ====
section
/-! DEFINITION. The meaning of every command: one arm per constructor of `Instr`. The command performed stands on the port
lines of the state (`State.cmd`): a fault records its word, and WRBLK and SHLI read its `wdata`. -/

namespace Sys2Proof.Machine

def exec (i : Instr) (s : State) : Host.Outcome State Fault Refusal :=
  match i with
  | .create d n => Sys2Proof.Machine.execCreate d n s
  | .destroy d => Sys2Proof.Machine.execDestroy d s
  | .copy d src => Sys2Proof.Machine.execCopy d src s
  | .rdblk d idx => Sys2Proof.Machine.execRdblk d idx s
  | .wrblk d idx => Sys2Proof.Machine.execWrblk d idx s
  | .rdstat => Sys2Proof.Machine.execRdstat s
  | .rdnv d => Sys2Proof.Machine.execRdnv d s
  | .supclr => Sys2Proof.Machine.execSupclr s
  | .suppush v => Sys2Proof.Machine.execSuppush v s
  | .rdsup p => Sys2Proof.Machine.execRdsup p s
  | .hasvar d v => Sys2Proof.Machine.execHasvar d v s
  | .cof0i d v => Sys2Proof.Machine.execCof0i d v s
  | .cof1i d v => Sys2Proof.Machine.execCof1i d v s
  | .swapadji d v => Sys2Proof.Machine.execSwapadji d v s
  | .swapi d v w => Sys2Proof.Machine.execSwapi d v w s
  | .flipi d v => Sys2Proof.Machine.execFlipi d v s
  | .minbasei d => Sys2Proof.Machine.execMinbasei d s
  | .expandi d => Sys2Proof.Machine.execExpandi d s
  | .extfill d src => Sys2Proof.Machine.execExtfill d src s
  | .nexti d => Sys2Proof.Machine.execNexti d s
  | .shli d => Sys2Proof.Machine.execShli d s

end Sys2Proof.Machine
end

