-- ==== Sys2Proof/Machine/Port.lean ====
section
/-! DEFINITION. The command port and the host's side of a run (`spec/00_scope.md` R5; `spec/10_state.md` R44;
`spec/70_reset_and_hazards.md` R261, R270): taking the next thing the host does, reading its command word, and giving its
answer. The unit fetches nothing (R44); presenting a command stands where other machines fetch. -/

namespace Sys2Proof.Machine

/-- The host presents command `c`, the next of its list, on the port lines; `rest` remains for later (R5, R44). -/
def present (c : Command) (rest : List Event) (s : State) : State :=
  { s with cmd := c, pending := rest }

/-- The command has answered: its `rdata` joins the outputs of the run (R270). -/
def recordAnswer (s : State) : State :=
  { s with outputs := s.outputs ++ [s.rdata] }

/-- What is done with a command's next state; a command that stops gives no answer. -/
def recordOutcome : Outcome → Outcome
  | .next s => .next (recordAnswer s)
  | .fault e => .fault e
  | .refused e => .refused e

/-- The command on the port lines is performed: decoded, then run, or met as an illegal word (R88). -/
def performWord (s : State) : Outcome :=
  match decode s.cmd.cw with
  | .ok i => exec i s
  | .error _ => performIllegal s

/-- One step of a run: with nothing pending the unit waits for the host (R261, R270); a reset is applied between commands
(R247, R260); a command is presented, performed, and answers. -/
def advance (s : State) : Outcome :=
  match s.pending with
  | [] => .next s
  | .reset :: rest => .next (applyReset { s with pending := rest })
  | .command c :: rest => recordOutcome (performWord (present c rest s))

/-- The host's list with a command word placed at its head: the `wdata` of a command that stands there is kept. -/
def placeWord (w : CmdWord) : List Event → List Event
  | .command c :: rest => .command { c with cw := w } :: rest
  | rest => .command { cw := w, wdata := 0 } :: rest

end Sys2Proof.Machine
end

