-- ==== Sys2Proof/Machine/Step.lean ====
section
/-! DEFINITION. One step of the machine, and the placing of a command word where the next step takes it. -/

namespace Sys2Proof.Machine

/-- One step. A configuration outside the ranges of R8 to R10 is refused, as the spec says a model does
(`spec/93_implementation_defined.md` U9, U10, U11); otherwise the host's next action is taken. -/
def step (s : State) : Host.Outcome State Fault Refusal :=
  if s.cfg.valid then advance s else .refused .illegalParameters

/-- The state in which the host presents the word `w` (its low `nbits` bits) next. It stands for the host's presentation of
a command: the unit has no program memory (R44, R261; notes/assumptions/3.md). -/
def State.withFetchWord (s : State) (nbits w : Nat) : State :=
  { s with pending := placeWord (BitVec.ofNat 32 (w % 2 ^ nbits)) s.pending }

end Sys2Proof.Machine
end

