-- ==== Sys2Proof/Machine/Assembler.lean ====
section
/-! DEFINITION. What the assembler of the spec adds to the command words: the syntax of a command (`spec/30_encoding.md`
R90, R91), and the pseudo-instructions, the pure forms of the operations, each two commands to the unit (R92). -/

namespace Sys2Proof.Machine

/-- A slot in the syntax: `T` and its decimal number (R90). -/
def slotText (d : SlotNo) : String := "T" ++ toString d.toNat

/-- One line of the syntax: the mnemonic, then the operands separated by commas (R90). -/
def lineText (mnemonic : String) (operands : List String) : String :=
  if operands.isEmpty then mnemonic else mnemonic ++ " " ++ String.intercalate ", " operands

/-- A command as a line of the syntax, its operands in the order of R91; `wdata` in decimal. -/
def syntaxOf (wdata : Block) : Instr → String
  | .create d n => lineText "CREATE" [slotText d, toString n.toNat]
  | .destroy d => lineText "DESTROY" [slotText d]
  | .copy d src => lineText "COPY" [slotText d, slotText src]
  | .rdblk d idx => lineText "RDBLK" [slotText d, toString idx.toNat]
  | .wrblk d idx => lineText "WRBLK" [slotText d, toString idx.toNat, toString wdata.toNat]
  | .rdstat => lineText "RDSTAT" []
  | .rdnv d => lineText "RDNV" [slotText d]
  | .supclr => lineText "SUPCLR" []
  | .suppush v => lineText "SUPPUSH" [toString v.toNat]
  | .rdsup p => lineText "RDSUP" [toString p.toNat]
  | .hasvar d v => lineText "HASVAR" [slotText d, toString v.toNat]
  | .cof0i d v => lineText "COF0I" [slotText d, toString v.toNat]
  | .cof1i d v => lineText "COF1I" [slotText d, toString v.toNat]
  | .swapadji d v => lineText "SWAPADJI" [slotText d, toString v.toNat]
  | .swapi d v w => lineText "SWAPI" [slotText d, toString v.toNat, toString w.toNat]
  | .flipi d v => lineText "FLIPI" [slotText d, toString v.toNat]
  | .minbasei d => lineText "MINBASEI" [slotText d]
  | .expandi d => lineText "EXPANDI" [slotText d]
  | .extfill d src => lineText "EXTFILL" [slotText d, slotText src]
  | .nexti d => lineText "NEXTI" [slotText d]
  | .shli d => lineText "SHLI" [slotText d, toString wdata.toNat]

/-- The pseudo-instructions (R92). -/
inductive Pseudo where
  | cof0 (d src : SlotNo) (v : SmallOp)
  | cof1 (d src : SlotNo) (v : SmallOp)
  | swapadj (d src : SlotNo) (v : SmallOp)
  | swap (d src : SlotNo) (v w : SmallOp)
  | flip (d src : SlotNo) (v : SmallOp)
  | minbase (d src : SlotNo)
  | expand (d src : SlotNo)
  | next (d src : SlotNo)
  | shl (d src : SlotNo) (shift : Block)
  | extend (d src : SlotNo) (n : SmallOp)
deriving DecidableEq, Repr

/-- The destination `Td` of a pseudo-instruction. -/
def pseudoDest : Pseudo → SlotNo
  | .cof0 d _ _ => d
  | .cof1 d _ _ => d
  | .swapadj d _ _ => d
  | .swap d _ _ _ => d
  | .flip d _ _ => d
  | .minbase d _ => d
  | .expand d _ => d
  | .next d _ => d
  | .shl d _ _ => d
  | .extend d _ _ => d

/-- The two commands of a pseudo-instruction, and the `wdata` of the second (R92). -/
def pseudoCommands : Pseudo → Instr × Instr × Block
  | .cof0 d src v => (.copy d src, .cof0i d v, 0)
  | .cof1 d src v => (.copy d src, .cof1i d v, 0)
  | .swapadj d src v => (.copy d src, .swapadji d v, 0)
  | .swap d src v w => (.copy d src, .swapi d v w, 0)
  | .flip d src v => (.copy d src, .flipi d v, 0)
  | .minbase d src => (.copy d src, .minbasei d, 0)
  | .expand d src => (.copy d src, .expandi d, 0)
  | .next d src => (.copy d src, .nexti d, 0)
  | .shl d src shift => (.copy d src, .shli d, shift)
  | .extend d src n => (.create d n, .extfill d src, 0)

/-- What the host presents for a pseudo-instruction: its two command words in order (R92). -/
def expandPseudo (p : Pseudo) : List Event :=
  [.command { cw := encode (pseudoCommands p).1, wdata := 0 },
    .command { cw := encode (pseudoCommands p).2.1, wdata := (pseudoCommands p).2.2 }]

end Sys2Proof.Machine
end

