-- ==== Sys2Proof/Machine/Functional.lean ====
section
/-! DEFINITION. The functional definitions on table bits: what the engine commands MEAN (`spec/41_cofactor.md`,
`spec/42_permutation.md`, `spec/44_extend.md`, `spec/45_shift_enum.md`; where the word algorithm and the functional
definition differ, the functional definition governs). The engines of this model run the word algorithms; that the two
agree is stated in `Certificates/Slice0/Obligations.lean`. -/

namespace Sys2Proof.Machine

/-- `k & ~2^i` (R135). -/
def idxClear (k i : Nat) : Nat := k ^^^ (k &&& 2 ^ i)

/-- `k | 2^i` (R138). -/
def idxSet (k i : Nat) : Nat := k ||| 2 ^ i

/-- `k ^ 2^i` (R132, R164). -/
def idxFlip (k i : Nat) : Nat := k ^^^ 2 ^ i

/-- `XCH(k, i, j)`: `k` with its bits `i` and `j` exchanged (R157). -/
def idxExchange (k i j : Nat) : Nat :=
  if k.testBit i = k.testBit j then k else k ^^^ 2 ^ i ^^^ 2 ^ j

/-- `u` is the table of arity `n` whose bit `k` is `g k`, for every `k < LEN(n)`: the form of every functional definition. -/
def Table.IsBits (u : Table) (n : Nat) (g : Nat → Bool) : Prop :=
  u.n = n ∧ u.wf = true ∧ ∀ k, k < LEN n → u.bit k = g k

/-- `DEP(t, i)`: there is a `k < LEN(t.n)` with `bit(t, k) != bit(t, k ^ 2^i)` (R132). -/
def Table.Dep (t : Table) (i : Nat) : Prop :=
  ∃ k, k < LEN t.n ∧ t.bit k ≠ t.bit (idxFlip k i)

/-- `u = COF0(t, i)` (R135). -/
def Table.IsCof0 (t : Table) (i : Nat) (u : Table) : Prop :=
  u.IsBits t.n (fun k => t.bit (idxClear k i))

/-- `u = COF1(t, i)` (R138). -/
def Table.IsCof1 (t : Table) (i : Nat) (u : Table) : Prop :=
  u.IsBits t.n (fun k => t.bit (idxSet k i))

/-- `u = SWAP(t, i, j)` (R157). -/
def Table.IsSwap (t : Table) (i j : Nat) (u : Table) : Prop :=
  u.IsBits t.n (fun k => t.bit (idxExchange k i j))

/-- `u = FLIP(t, i)` (R164). -/
def Table.IsFlip (t : Table) (i : Nat) (u : Table) : Prop :=
  u.IsBits t.n (fun k => t.bit (idxFlip k i))

/-- `u = EXT(tn, t)` (R197). -/
def Table.IsExt (t : Table) (tn : Nat) (u : Table) : Prop :=
  u.IsBits tn (fun k => t.bit (k % LEN t.n))

/-- `u` is `t` shifted by `sh` toward higher indices, zeros entering (R214). -/
def Table.IsShl (t : Table) (sh : Nat) (u : Table) : Prop :=
  u.IsBits t.n (fun k => decide (sh ≤ k) && t.bit (k - sh))

end Sys2Proof.Machine
end

