-- ==== Sys2Proof/WellFormed.lean ====
section
/-! DEFINITION. Which commands are well formed for a unit: every slot the command names exists (`spec/30_encoding.md`
R86). The widths of the fields are fixed by their types, and the must-be-zero fields of R85 are no part of a command that
has been read, so R86 is the only check left; it has two parts, one for the `d` field and one for the `s` field. -/

namespace Sys2Proof

/-- The `d` field of the command, where the command uses one (R84). -/
def Instr.dField? : Instr → Option SlotNo
  | .create d _ => some d
  | .destroy d => some d
  | .copy d _ => some d
  | .rdblk d _ => some d
  | .wrblk d _ => some d
  | .rdstat => none
  | .rdnv d => some d
  | .supclr => none
  | .suppush _ => none
  | .rdsup _ => none
  | .hasvar d _ => some d
  | .cof0i d _ => some d
  | .cof1i d _ => some d
  | .swapadji d _ => some d
  | .swapi d _ _ => some d
  | .flipi d _ => some d
  | .minbasei d => some d
  | .expandi d => some d
  | .extfill d _ => some d
  | .nexti d => some d
  | .shli d => some d

/-- The `s` field of the command, where the command uses one (R84): COPY and EXTFILL only. -/
def Instr.sField? : Instr → Option SlotNo
  | .copy _ src => some src
  | .extfill _ src => some src
  | .create _ _ => none
  | .destroy _ => none
  | .rdblk _ _ => none
  | .wrblk _ _ => none
  | .rdstat => none
  | .rdnv _ => none
  | .supclr => none
  | .suppush _ => none
  | .rdsup _ => none
  | .hasvar _ _ => none
  | .cof0i _ _ => none
  | .cof1i _ _ => none
  | .swapadji _ _ => none
  | .swapi _ _ _ => none
  | .flipi _ _ => none
  | .minbasei _ => none
  | .expandi _ => none
  | .nexti _ => none
  | .shli _ => none

/-- The used `d` field names a slot that exists (R86). -/
def Instr.dFieldOk (c : Config) (i : Instr) : Bool :=
  i.dField?.all (fun d => decide (d.toNat < c.nt))

/-- The used `s` field names a slot that exists (R86). -/
def Instr.sFieldOk (c : Config) (i : Instr) : Bool :=
  i.sField?.all (fun d => decide (d.toNat < c.nt))

/-- A well-formed command of a unit with parameters `c`: every slot it names exists (R86). -/
def Instr.wf (c : Config) (i : Instr) : Bool :=
  i.dFieldOk c && i.sFieldOk c

end Sys2Proof
end

