-- ==== Sys2Proof/Safety.lean ====
section
/-! DEFINITION. The terms claims are stated in: the invariant of the machine, what an observer reads, what it means that a
command leaves the rest alone, and what a successful state is. -/

namespace Sys2Proof.Machine

/-- The fault record is consistent: `CAUSE` and `FCW` are 0 while `F = 0`, and a recorded fault has a cause (R37, R231, R243). -/
def State.recordOk (s : State) : Bool :=
  if s.f then s.cause != .none else s.cause == .none && s.fcw == 0

/-- The invariant: the parameters are in range (R8 to R10), the block store is in its canonical form (R14, R30 to R33), the
support list fits its store (R38), and the fault record is consistent (R37). -/
def State.Inv (s : State) : Bool :=
  s.cfg.valid && Memory.wf s.cfg s.slots && decide (s.suplen ≤ s.cfg.supcap) && s.recordOk

/-- A run is successful in an end state with `F = 0` (R270). -/
def State.successful (s : State) : Bool := !s.f

/-- What a command's statement assumes of the state: the invariant holds, no fault is recorded, and every slot the command
names exists (R86, R243). -/
def ready (i : Instr) (s : State) : Bool :=
  s.Inv && !s.f && i.wf s.cfg

/-- Slot `e` of `t` is as in `s`: the slot itself, every block of it, and every byte of every block (R34, R60, R64). -/
def SlotSame (e : SlotNo) (s t : State) : Prop :=
  t.slot e = s.slot e ∧ (∀ b, t.memRead e b = s.memRead e b) ∧ ∀ b y, t.readByte e b y = s.readByte e b y

/-- Every slot but `d` is as before: exclusive ownership (R34). -/
def OtherSlotsSame (d : SlotNo) (s t : State) : Prop :=
  ∀ e, e ≠ d → SlotSame e s t

/-- Every slot is as before. -/
def SlotsSame (s t : State) : Prop :=
  ∀ e, SlotSame e s t

/-- The fault record and the parameters are as before, and so are the input lines of the port, what the host has still to do
and the outputs already given: what no command that completes writes (R45). -/
def RecordSame (s t : State) : Prop :=
  t.f = s.f ∧ t.cause = s.cause ∧ t.fcw = s.fcw ∧ t.cfg = s.cfg ∧ t.cmd = s.cmd ∧ t.pending = s.pending ∧ t.outputs = s.outputs

/-- `t` is `s` after a command that wrote at most slot `d` and answered 0: the flag, the support list, the fault record and
every other slot are unchanged (R45). -/
def WroteSlotOnly (d : SlotNo) (s t : State) : Prop :=
  t.rdata = 0 ∧ t.r = s.r ∧ t.sup = s.sup ∧ RecordSame s t ∧ OtherSlotsSame d s t

/-- `t` is `s` after a command that only answered: nothing but `rdata` may differ (R45). -/
def AnsweredOnly (s t : State) : Prop :=
  t.r = s.r ∧ t.sup = s.sup ∧ RecordSame s t ∧ SlotsSame s t

/-- The state after the fault entry with cause `c` (R240): the record is written, the answer is 0, and every other field is
as before. -/
def faulted (c : Cause) (s : State) : State :=
  { s with f := true, cause := c, fcw := s.cmd.cw, rdata := 0 }

/-- The slots that a command needs to be `LIVE` (R232). -/
def needsLive : Instr → List SlotNo
  | .create _ _ => []
  | .destroy d => [d]
  | .copy _ src => [src]
  | .rdblk d _ => [d]
  | .wrblk d _ => [d]
  | .rdstat => []
  | .rdnv d => [d]
  | .supclr => []
  | .suppush _ => []
  | .rdsup _ => []
  | .hasvar d _ => [d]
  | .cof0i d _ => [d]
  | .cof1i d _ => [d]
  | .swapadji d _ => [d]
  | .swapi d _ _ => [d]
  | .flipi d _ => [d]
  | .minbasei d => [d]
  | .expandi d => [d]
  | .extfill d src => [d, src]
  | .nexti d => [d]
  | .shli d => [d]

/-- The causes that a command can raise beyond `ILLEGAL_CMD` (R246). -/
def mayRaise : Instr → List Cause
  | .create _ _ => [.slotLive, .arity]
  | .destroy _ => [.slotEmpty]
  | .copy _ _ => [.slotEmpty, .slotLive, .arity]
  | .rdblk _ _ => [.slotEmpty, .blkRange]
  | .wrblk _ _ => [.slotEmpty, .blkRange]
  | .rdstat => []
  | .rdnv _ => [.slotEmpty]
  | .supclr => []
  | .suppush _ => [.supRange]
  | .rdsup _ => [.supRange]
  | .hasvar _ _ => [.slotEmpty, .varRange]
  | .cof0i _ _ => [.slotEmpty, .varRange]
  | .cof1i _ _ => [.slotEmpty, .varRange]
  | .swapadji _ _ => [.slotEmpty, .varRange]
  | .swapi _ _ _ => [.slotEmpty, .varRange]
  | .flipi _ _ => [.slotEmpty, .varRange]
  | .minbasei _ => [.slotEmpty]
  | .expandi _ => [.slotEmpty, .varRange]
  | .extfill _ _ => [.slotEmpty, .extendRange]
  | .nexti _ => [.slotEmpty]
  | .shli _ => [.slotEmpty]

/-- Two states that differ at most in the contents of their tables and in the result flag: the same slots are live, with the
same arities. -/
def SameShape (s s' : State) : Prop :=
  s.cfg = s'.cfg ∧ s.f = s'.f ∧ s.cause = s'.cause ∧ s.fcw = s'.fcw ∧ s.sup = s'.sup ∧ s.cmd = s'.cmd ∧
  ∀ d, (s.slot d = .empty ∧ s'.slot d = .empty) ∨ ∃ t t', s.slot d = .live t ∧ s'.slot d = .live t' ∧ t.n = t'.n

/-- The number of 1 bits of a table. -/
def Table.ones (t : Table) : Nat := (List.range (LEN t.n)).countP t.bit

/-- The same command performed `j` times, one after the other, with the same port lines. -/
def repeatExec (i : Instr) : Nat → State → Outcome
  | 0, s => .next s
  | j + 1, s =>
    match exec i s with
    | .next t => repeatExec i j t
    | .fault e => .fault e
    | .refused e => .refused e

/-- `k` steps of the machine, one after the other. -/
def runSteps : Nat → State → Outcome
  | 0, s => .next s
  | k + 1, s =>
    match step s with
    | .next t => runSteps k t
    | .fault e => .fault e
    | .refused e => .refused e

end Sys2Proof.Machine
end

