-- ==== Sys2Proof/Certificates/Slice0/Obligations.lean ====
section
/-! DEFINITION. The statements for the provers. Each is about every state that meets its hypotheses, so about every value
of the parameters `NMAX`, `NT` and `FIXED` that a state may carry. -/

open Sys2Proof Sys2Proof.Machine

/-! ### Encoding -/

/-- Words written out from the encoding tables decode to the commands they stand for, one of each engine at least (R84, R91). -/
def Obligations.ManualWordsDecode : Prop :=
  decode 0x01000300 = .ok (.create 0 3) ∧ decode 0x03100000 = .ok (.copy 1 0) ∧ decode 0x05000000 = .ok (.wrblk 0 0) ∧
  decode 0x04F0FFFF = .ok (.rdblk 15 0xFFFF) ∧ decode 0x0A000100 = .ok (.rdsup 1) ∧ decode 0x10000200 = .ok (.hasvar 0 2) ∧
  decode 0x21100106 = .ok (.swapi 1 1 6) ∧ decode 0x31000000 = .ok (.expandi 0) ∧ decode 0x40100000 = .ok (.extfill 1 0) ∧
  decode 0x51000000 = .ok (.shli 0)

/-- Decoding the encoding of a command gives the command back, with every operand at every value (R88). -/
def Obligations.DecodeOfEncode : Prop :=
  ∀ i : Instr, decode (encode i) = .ok i

/-- A word that decodes to a command is the one encoding of that command (R85, R88). -/
def Obligations.LegalWordIsTheEncoding : Prop :=
  ∀ (cw : CmdWord) (i : Instr), decode cw = .ok i → encode i = cw

/-- A word spells the command of a row exactly when it has the row's `match` under the row's `mask` (R89); the command is the
row's, with the fields of the word as they stand. -/
def Obligations.DecodeByMatchAndMask : Prop :=
  ∀ (o : Opcode) (cw : CmdWord), decode cw = .ok (o.read cw) ↔ cw &&& o.mask = o.matchWord

/-- The command word of every command as a number (R91). -/
def Obligations.CommandWordValues : Prop :=
  ∀ (d s : SlotNo) (a b : SmallOp) (idx : BlockIdx),
    (encode (.create d a)).toNat = 0x01000000 + d.toNat * 2 ^ 20 + a.toNat * 2 ^ 8 ∧
    (encode (.destroy d)).toNat = 0x02000000 + d.toNat * 2 ^ 20 ∧
    (encode (.copy d s)).toNat = 0x03000000 + d.toNat * 2 ^ 20 + s.toNat * 2 ^ 16 ∧
    (encode (.rdblk d idx)).toNat = 0x04000000 + d.toNat * 2 ^ 20 + idx.toNat ∧
    (encode (.wrblk d idx)).toNat = 0x05000000 + d.toNat * 2 ^ 20 + idx.toNat ∧
    (encode .rdstat).toNat = 0x06000000 ∧
    (encode (.rdnv d)).toNat = 0x07000000 + d.toNat * 2 ^ 20 ∧
    (encode .supclr).toNat = 0x08000000 ∧
    (encode (.suppush a)).toNat = 0x09000000 + a.toNat * 2 ^ 8 ∧
    (encode (.rdsup a)).toNat = 0x0A000000 + a.toNat * 2 ^ 8 ∧
    (encode (.hasvar d a)).toNat = 0x10000000 + d.toNat * 2 ^ 20 + a.toNat * 2 ^ 8 ∧
    (encode (.cof0i d a)).toNat = 0x11000000 + d.toNat * 2 ^ 20 + a.toNat * 2 ^ 8 ∧
    (encode (.cof1i d a)).toNat = 0x12000000 + d.toNat * 2 ^ 20 + a.toNat * 2 ^ 8 ∧
    (encode (.swapadji d a)).toNat = 0x20000000 + d.toNat * 2 ^ 20 + a.toNat * 2 ^ 8 ∧
    (encode (.swapi d a b)).toNat = 0x21000000 + d.toNat * 2 ^ 20 + a.toNat * 2 ^ 8 + b.toNat ∧
    (encode (.flipi d a)).toNat = 0x22000000 + d.toNat * 2 ^ 20 + a.toNat * 2 ^ 8 ∧
    (encode (.minbasei d)).toNat = 0x30000000 + d.toNat * 2 ^ 20 ∧
    (encode (.expandi d)).toNat = 0x31000000 + d.toNat * 2 ^ 20 ∧
    (encode (.extfill d s)).toNat = 0x40000000 + d.toNat * 2 ^ 20 + s.toNat * 2 ^ 16 ∧
    (encode (.nexti d)).toNat = 0x50000000 + d.toNat * 2 ^ 20 ∧
    (encode (.shli d)).toNat = 0x51000000 + d.toNat * 2 ^ 20

/-- The 21 values of `op` in the map (R84). -/
def definedOps : List Nat :=
  [0x01, 0x02, 0x03, 0x04, 0x05, 0x06, 0x07, 0x08, 0x09, 0x0A, 0x10, 0x11, 0x12, 0x20, 0x21, 0x22, 0x30, 0x31, 0x40, 0x50, 0x51]

/-- The 235 opcodes that are not in the map are illegal: a step at such a word takes the fault `ILLEGAL_CMD`, and changes
nothing else of the unit (R87, R88, R233, R240). That the word stands at the head of the list `pending`, and that its answer joins
`outputs`, is the model's bookkeeping (notes/assumptions/3.md), here and in every statement over `step`. -/
def Obligations.UndefinedOpcodeFaults : Prop :=
  ((List.range 256).filter (fun op => !definedOps.contains op)).length = 235 ∧
  ∀ (s : State) (c : Command) (rest : List Event), s.cfg.valid = true → s.f = false → s.pending = .command c :: rest →
    (opField c.cw).toNat ∉ definedOps →
    step s = .next (recordAnswer (faulted .illegalCmd (present c rest s)))

/-- A word with an opcode of the map in which a field that the command does not use is not zero, so that it is not the
command's encoding, is illegal (R85, R233; `pending` and `outputs`: notes/assumptions/3.md). -/
def Obligations.ReservedFieldFaults : Prop :=
  ∀ (s : State) (c : Command) (rest : List Event) (o : Opcode), s.cfg.valid = true → s.f = false →
    s.pending = .command c :: rest → opField c.cw = o.code → encode (o.read c.cw) ≠ c.cw →
    step s = .next (recordAnswer (faulted .illegalCmd (present c rest s)))

/-- A command that names, in its `d` or its `s` field, a slot that does not exist is illegal (R86, R233), before any of its
own checks (R241). -/
def Obligations.MissingSlotFaults : Prop :=
  ∀ (i : Instr) (s : State) (d : SlotNo), s.f = false → (i.dField? = some d ∨ i.sField? = some d) → s.cfg.nt ≤ d.toNat →
    exec i s = .next (faulted .illegalCmd s)

/-! ### Steps, faults and reset -/

/-- A step at a command word that decodes runs exactly that command: the host's next command stands on the port lines, and
what the command answers joins the outputs (R44, R267, R270; how the model holds both: notes/assumptions/3.md). -/
def Obligations.StepRunsTheDecodedCommand : Prop :=
  ∀ (s t : State) (c : Command) (rest : List Event) (i : Instr), s.cfg.valid = true → s.pending = .command c :: rest →
    decode c.cw = .ok i → exec i { s with cmd := c, pending := rest } = .next t →
    step s = .next { t with outputs := t.outputs ++ [t.rdata] }

/-- Without a command there is nothing to perform: the unit waits (R261), and parameters out of range are refused
(`spec/93_implementation_defined.md` U9, U10, U11). That a waiting step is a step is the model's choice
(notes/assumptions/3.md). -/
def Obligations.StepWithoutCommand : Prop :=
  ∀ s : State,
    (s.cfg.valid = true → s.pending = [] → step s = .next s) ∧
    (s.cfg.valid = false → step s = .refused .illegalParameters)

/-- In a unit with parameters in range every step has a next state, and every command has one in every state (R267, R268;
`pending`: notes/assumptions/3.md). -/
def Obligations.EveryStepAnswers : Prop :=
  (∀ s : State, s.cfg.valid = true → ∃ t, step s = .next t) ∧ ∀ (i : Instr) (s : State), ∃ t, exec i s = .next t

/-- In the faulted state the word `0x06000000` is answered with `STATUS` and every other word, legal or not, is ignored with
the answer 0; nothing of the unit changes (R243; `pending` and `outputs`: notes/assumptions/3.md). -/
def Obligations.FaultedUnitIgnores : Prop :=
  ∀ (s : State) (c : Command) (rest : List Event), s.cfg.valid = true → s.f = true → s.pending = .command c :: rest →
    (c.cw = 0x06000000 →
      step s = .next { s with cmd := c, pending := rest, rdata := s.status, outputs := s.outputs ++ [s.status] }) ∧
    (c.cw ≠ 0x06000000 →
      step s = .next { s with cmd := c, pending := rest, rdata := 0, outputs := s.outputs ++ [0] })

/-- The faulted state is absorbing: however many steps follow, as long as the host does not reset the unit, the flag, the
fault record, the slots and the support list stay as the first fault left them (R243, R244;
`pending`: notes/assumptions/3.md). -/
def Obligations.FaultedStateIsAbsorbing : Prop :=
  ∀ (k : Nat) (s t : State), s.f = true → Event.reset ∉ s.pending → runSteps k s = .next t →
    t.f = true ∧ t.cause = s.cause ∧ t.fcw = s.fcw ∧ t.slots = s.slots ∧ t.r = s.r ∧ t.sup = s.sup

/-- A command that faults has had exactly the effect of the fault entry: the record is written, the answer is 0, and every
other field of the state is as before (R240, R242). -/
def Obligations.FaultEntryIsExact : Prop :=
  ∀ (i : Instr) (s t : State), s.f = false → exec i s = .next t → t.f = true → t.cause ≠ .none ∧ t = faulted t.cause s

/-- A command raises no cause but those its rule gives it, and `ILLEGAL_CMD` (R246). -/
def Obligations.CausesOfEachCommand : Prop :=
  ∀ (i : Instr) (s t : State), s.f = false → exec i s = .next t → t.f = true →
    t.cause = .illegalCmd ∨ t.cause ∈ mayRaise i

/-- No table content makes a command fault: in two states that differ only in the contents of their tables, a command faults
in both or in neither, with the same cause and the same word recorded (R245). -/
def Obligations.TableContentNeverFaults : Prop :=
  ∀ (i : Instr) (s s' t t' : State), SameShape s s' → exec i s = .next t → exec i s' = .next t' →
    t.f = t'.f ∧ t.cause = t'.cause ∧ t.fcw = t'.fcw

/-- Reset, from any state, faulted or not: every slot `EMPTY`, the flag, the fault record and the support list clear, the
parameters as they were (R260). That a reset is an event of the host's list, and leaves that list and the outputs alone, is
the model's choice (notes/assumptions/3.md). -/
def Obligations.ResetClearsTheUnit : Prop :=
  ∀ (s : State) (rest : List Event), s.cfg.valid = true → s.pending = .reset :: rest →
    ∃ t, step s = .next t ∧ (∀ d, t.slot d = .empty) ∧ t.slots.length = s.cfg.nt ∧ t.r = false ∧ t.f = false ∧
      t.cause = .none ∧ t.fcw = 0 ∧ t.suplen = 0 ∧ t.cfg = s.cfg ∧ t.pending = rest ∧ t.outputs = s.outputs

/-- The state after reset, whatever the parameters: every slot `EMPTY`, `R = 0`, `F = 0`, `CAUSE = 0`, `FCW = 0`,
`SUPLEN = 0`, hence `STATUS = 0` (R46). -/
def Obligations.ResetValues : Prop :=
  ∀ c : Config, (∀ d, (State.resetWith c).slot d = .empty) ∧ (State.resetWith c).slots.length = c.nt ∧
    (State.resetWith c).r = false ∧ (State.resetWith c).f = false ∧ (State.resetWith c).cause.code = 0 ∧
    (State.resetWith c).fcw = 0 ∧ (State.resetWith c).suplen = 0 ∧ (State.resetWith c).status = 0

/-- The invariant holds after reset of a unit with parameters in range, and after reset of the standard unit,
whose parameters are the model's choice (notes/assumptions/1.md). -/
def Obligations.ResetMeetsTheInvariant : Prop :=
  (∀ c : Config, c.valid = true → (State.resetWith c).Inv = true) ∧ State.reset.Inv = true

/-- Every step keeps the invariant: the block store stays in its canonical form, every live table with its `NB(n)` blocks, no
stray bit above `2^n` and an allowed arity; the support list stays within its capacity; the fault record stays
consistent (R31 to R33, R37, R38). -/
def Obligations.StepKeepsTheInvariant : Prop :=
  ∀ s t : State, s.Inv = true → step s = .next t → t.Inv = true

/-- The slot state machine (R104): only CREATE and COPY, on their destination, make an `EMPTY` slot `LIVE`; only DESTROY makes a
`LIVE` slot `EMPTY`; every other command leaves the slot state and the arity of every slot unchanged. -/
def Obligations.SlotStateMachine : Prop :=
  ∀ (i : Instr) (s t : State) (e : SlotNo), s.Inv = true → exec i s = .next t →
    (s.slot e = .empty → t.slot e = .empty ∨ (∃ n, i = .create e n) ∨ (∃ src, i = .copy e src)) ∧
    (∀ tb, s.slot e = .live tb → (∃ u, t.slot e = .live u ∧ u.n = tb.n) ∨ (i = .destroy e ∧ t.slot e = .empty))

/-- A command changes no slot but the one its `d` field names, in any state and whether it completes, faults or is ignored
(R34, R106). -/
def Obligations.ExclusiveOwnership : Prop :=
  ∀ (i : Instr) (s t : State) (e : SlotNo), exec i s = .next t → i.dField? ≠ some e → SlotSame e s t

/-- No command but HASVAR writes the result flag `R` (R36), none but MINBASEI, SUPCLR and SUPPUSH the support list (R38), and
none the parameters (R260). -/
def Obligations.WhoWritesTheFlags : Prop :=
  ∀ (i : Instr) (s t : State), exec i s = .next t →
    ((∀ d v, i ≠ .hasvar d v) → t.r = s.r) ∧
    ((∀ d, i ≠ .minbasei d) → i ≠ .supclr → (∀ v, i ≠ .suppush v) → t.sup = s.sup) ∧
    t.cfg = s.cfg

/-! ### The block store commands -/

/-- CREATE on an `EMPTY` slot, with an arity that the unit and the slot allow, makes the all-zero table there (R101). -/
def Obligations.CreateMakesTheZeroTable : Prop :=
  ∀ (s : State) (d : SlotNo) (n : SmallOp), ready (.create d n) s = true → s.slot d = .empty → n.toNat ≤ s.cfg.nmax →
    (∀ f, s.cfg.fixedArity d = some f → n.toNat = f) →
    ∃ t, exec (.create d n) s = .next t ∧ t.slot d = .live { n := n.toNat, blk := List.replicate (NB n.toNat) 0 } ∧
      WroteSlotOnly d s t

/-- DESTROY empties a `LIVE` slot; the flag and the support list keep their values (R103). -/
def Obligations.DestroyEmptiesTheSlot : Prop :=
  ∀ (s : State) (d : SlotNo) (tb : Table), ready (.destroy d) s = true → s.slot d = .live tb →
    ∃ t, exec (.destroy d) s = .next t ∧ t.slot d = .empty ∧ WroteSlotOnly d s t

/-- COPY of a `LIVE` slot into an `EMPTY` one that allows its arity clones the table; the source is unchanged (R105). -/
def Obligations.CopyClonesTheTable : Prop :=
  ∀ (s : State) (d src : SlotNo) (tb : Table), ready (.copy d src) s = true → s.slot src = .live tb → s.slot d = .empty →
    (∀ f, s.cfg.fixedArity d = some f → tb.n = f) →
    ∃ t, exec (.copy d src) s = .next t ∧ t.slot d = .live tb ∧ t.slot src = .live tb ∧ WroteSlotOnly d s t

/-- RDBLK answers the block at `(d, idx)`, bit `p` of the answer being table bit `64 * idx + p`, and changes nothing (R107). -/
def Obligations.RdblkAnswersTheBlock : Prop :=
  ∀ (s : State) (d : SlotNo) (idx : BlockIdx) (tb : Table), ready (.rdblk d idx) s = true → s.slot d = .live tb →
    idx.toNat < NB tb.n →
    ∃ t, exec (.rdblk d idx) s = .next t ∧ s.memRead d idx.toNat = some t.rdata ∧
      (∀ p, p < 64 → t.rdata.getLsbD p = tb.bit (64 * idx.toNat + p)) ∧ AnsweredOnly s t

/-- WRBLK stores `wdata & LENMASK(n)` in the block at `(d, idx)` and leaves every other block of the unit alone (R109). -/
def Obligations.WrblkStoresTheMaskedBlock : Prop :=
  ∀ (s : State) (d : SlotNo) (idx : BlockIdx) (tb : Table), ready (.wrblk d idx) s = true → s.slot d = .live tb →
    idx.toNat < NB tb.n →
    ∃ t u, exec (.wrblk d idx) s = .next t ∧ t.slot d = .live u ∧ u.n = tb.n ∧ u.wf = true ∧
      t.memRead d idx.toNat = some (s.cmd.wdata &&& lenMask tb.n) ∧
      (∀ b, b ≠ idx.toNat → t.memRead d b = s.memRead d b) ∧ WroteSlotOnly d s t

/-- RDSTAT answers the status register, field by field, in every state, faulted or not, and changes nothing (R39, R111). -/
def Obligations.RdstatAnswersTheStatus : Prop :=
  ∀ s : State, ∃ t, exec .rdstat s = .next t ∧
    t.rdata.extractLsb' 0 1 = BitVec.ofBool s.r ∧ t.rdata.extractLsb' 1 1 = BitVec.ofBool s.f ∧
    t.rdata.extractLsb' 2 2 = 0 ∧ t.rdata.extractLsb' 4 4 = s.cause.code ∧
    t.rdata.extractLsb' 8 8 = BitVec.ofNat 8 s.suplen ∧ t.rdata.extractLsb' 16 16 = 0 ∧
    t.rdata.extractLsb' 32 32 = s.fcw ∧ AnsweredOnly s t

/-- RDNV answers the arity and changes nothing (R112). -/
def Obligations.RdnvAnswersTheArity : Prop :=
  ∀ (s : State) (d : SlotNo) (tb : Table), ready (.rdnv d) s = true → s.slot d = .live tb →
    ∃ t, exec (.rdnv d) s = .next t ∧ t.rdata.toNat = tb.n ∧ AnsweredOnly s t

/-- SUPCLR empties the support list and changes nothing else (R114). -/
def Obligations.SupclrEmptiesTheList : Prop :=
  ∀ s : State, ready .supclr s = true →
    ∃ t, exec .supclr s = .next t ∧ t.suplen = 0 ∧ t.rdata = 0 ∧ t.r = s.r ∧ RecordSame s t ∧ SlotsSame s t

/-- SUPPUSH appends its value, as given, to a list that is not full, and changes nothing else (R115). -/
def Obligations.SuppushAppendsTheEntry : Prop :=
  ∀ (s : State) (v : SmallOp), ready (.suppush v) s = true → s.suplen < s.cfg.nmax →
    ∃ t, exec (.suppush v) s = .next t ∧ t.sup = s.sup ++ [v] ∧ t.rdata = 0 ∧ t.r = s.r ∧ RecordSame s t ∧ SlotsSame s t

/-- RDSUP answers the entry at a position of the list and changes nothing (R116). -/
def Obligations.RdsupAnswersTheEntry : Prop :=
  ∀ (s : State) (p : SmallOp) (v : SupEntry), ready (.rdsup p) s = true → s.sup[p.toNat]? = some v →
    ∃ t, exec (.rdsup p) s = .next t ∧ t.rdata.toNat = v.toNat ∧ AnsweredOnly s t

/-! ### The cofactor engine -/

/-- HASVAR sets `R`, and answers it, exactly when the table depends on the variable (R131, R132); the word algorithm of R133
computes it. No table and no other register changes. -/
def Obligations.HasvarTestsDependence : Prop :=
  ∀ (s : State) (d : SlotNo) (v : SmallOp) (tb : Table), ready (.hasvar d v) s = true → s.slot d = .live tb →
    v.toNat < tb.n →
    ∃ t, exec (.hasvar d v) s = .next t ∧ (t.r = true ↔ tb.Dep v.toNat) ∧ t.rdata = (if t.r then 1 else 0) ∧
      t.sup = s.sup ∧ RecordSame s t ∧ SlotsSame s t

/-- COF0I rewrites the table of its slot by its cofactor, bit by bit (R134, R135): the word algorithm of R136 agrees with the
functional definition. -/
def Obligations.CofZeroTakesTheCofactor : Prop :=
  ∀ (s : State) (d : SlotNo) (v : SmallOp) (tb : Table), ready (.cof0i d v) s = true → s.slot d = .live tb →
    v.toNat < tb.n →
    ∃ t u, exec (.cof0i d v) s = .next t ∧ t.slot d = .live u ∧ tb.IsCof0 v.toNat u ∧ WroteSlotOnly d s t

/-- COF1I rewrites the table of its slot by its cofactor, bit by bit (R137, R138): the word algorithm of R139 agrees with the
functional definition. -/
def Obligations.CofOneTakesTheCofactor : Prop :=
  ∀ (s : State) (d : SlotNo) (v : SmallOp) (tb : Table), ready (.cof1i d v) s = true → s.slot d = .live tb →
    v.toNat < tb.n →
    ∃ t u, exec (.cof1i d v) s = .next t ∧ t.slot d = .live u ∧ tb.IsCof1 v.toNat u ∧ WroteSlotOnly d s t

/-- The laws of the cofactors and of dependence (R140), of the machine's own table functions. -/
def Obligations.CofactorLaws : Prop :=
  ∀ (t : Table) (i : Nat), t.wf = true → i < t.n →
    (t.cof0 i).cof0 i = t.cof0 i ∧ (t.cof1 i).cof1 i = t.cof1 i ∧
    (t.cof0 i).hasVar i = false ∧ (t.cof1 i).hasVar i = false ∧
    (t.hasVar i = false ↔ t.cof0 i = t.cof1 i) ∧ (t.hasVar i = false ↔ t.flip i = t) ∧
    (∀ j, j < t.n → j ≠ i → (t.cof0 i).hasVar j = true → t.hasVar j = true) ∧
    (∀ j, j < t.n → j ≠ i → (t.cof1 i).hasVar j = true → t.hasVar j = true)

/-! ### The permutation engine -/

/-- SWAPADJI exchanges variables `i` and `i+1`, bit by bit (R151, R152): the three regimes of R153, R154 and R155 agree with
the functional definition. -/
def Obligations.SwapadjiExchangesNeighbours : Prop :=
  ∀ (s : State) (d : SlotNo) (v : SmallOp) (tb : Table), ready (.swapadji d v) s = true → s.slot d = .live tb →
    v.toNat + 1 < tb.n →
    ∃ t u, exec (.swapadji d v) s = .next t ∧ t.slot d = .live u ∧ tb.IsSwap v.toNat (v.toNat + 1) u ∧ WroteSlotOnly d s t

/-- SWAPI exchanges variables `i` and `j`, bit by bit (R156, R157), for every legal pair: the regimes of R158 to R161 agree
with the functional definition. -/
def Obligations.SwapiExchangesVariables : Prop :=
  ∀ (s : State) (d : SlotNo) (v w : SmallOp) (tb : Table), ready (.swapi d v w) s = true → s.slot d = .live tb →
    v.toNat < tb.n → w.toNat < tb.n →
    ∃ t u, exec (.swapi d v w) s = .next t ∧ t.slot d = .live u ∧ tb.IsSwap v.toNat w.toNat u ∧ WroteSlotOnly d s t

/-- FLIPI complements variable `i`, bit by bit (R163, R164): R165 and R166 agree with the functional definition. -/
def Obligations.FlipiNegatesTheInput : Prop :=
  ∀ (s : State) (d : SlotNo) (v : SmallOp) (tb : Table), ready (.flipi d v) s = true → s.slot d = .live tb →
    v.toNat < tb.n →
    ∃ t u, exec (.flipi d v) s = .next t ∧ t.slot d = .live u ∧ tb.IsFlip v.toNat u ∧ WroteSlotOnly d s t

/-- The laws of the permutations (R150, R167), of the machine's own table functions: involution, order independence, the
movement of dependence, and that the number of 1 bits is kept. -/
def Obligations.PermutationLaws : Prop :=
  (∀ (t : Table) (i j : Nat), t.wf = true → i < t.n → j < t.n →
    (t.swap i j).swap i j = t ∧ (t.flip i).flip i = t ∧ t.swap i j = t.swap j i ∧ t.swap i i = t ∧
    (t.flip i = t ↔ t.hasVar i = false) ∧
    (t.swap i j).hasVar i = t.hasVar j ∧ (t.swap i j).hasVar j = t.hasVar i ∧
    (∀ v, v < t.n → v ≠ i → v ≠ j → (t.swap i j).hasVar v = t.hasVar v) ∧
    (t.swap i j).ones = t.ones ∧ (t.flip i).ones = t.ones) ∧
  (∀ (t : Table) (i : Nat), t.wf = true → i + 1 < t.n →
    t.swapAdj i = t.swap i (i + 1) ∧ (t.swapAdj i).swapAdj i = t) ∧
  (Table.mk 2 [0x8]).swapAdj 0 = Table.mk 2 [0x8]

/-! ### The support-minimization engine -/

/-- MINBASEI (R181, R182): the support list becomes the support of the table, ascending; the answer is its length; the new
table depends on exactly its lowest positions, repeats itself above them, and its position `p` plays the role that variable
`SUP[p]` played; the number of 1 bits is kept. The result flag, the fault record and every other slot are unchanged. -/
def Obligations.MinbaseiMinimisesTheSupport : Prop :=
  ∀ (s : State) (d : SlotNo) (tb : Table), ready (.minbasei d) s = true → s.slot d = .live tb →
    ∃ t u, exec (.minbasei d) s = .next t ∧ t.slot d = .live u ∧ u.n = tb.n ∧ u.wf = true ∧
      (t.sup.map (fun v => v.toNat)).Pairwise (· < ·) ∧
      (∀ v, v ∈ t.sup.map (fun x => x.toNat) ↔ v < tb.n ∧ tb.Dep v) ∧
      t.rdata.toNat = t.suplen ∧
      (∀ v, v < u.n → (u.Dep v ↔ v < t.suplen)) ∧
      (∀ k, k < LEN u.n → u.bit k = u.bit (k % 2 ^ t.suplen)) ∧
      (∀ k k', k < LEN u.n → k' < LEN tb.n →
        (∀ p v, t.sup[p]? = some v → k'.testBit v.toNat = k.testBit p) → u.bit k = tb.bit k') ∧
      u.ones = tb.ones ∧
      t.r = s.r ∧ RecordSame s t ∧ OtherSlotsSame d s t

/-- EXPANDI (R185): with every swap legal, the table goes through the exchanges of position `p` and variable `SUP[p]`, from the
last position to the first; the support list is kept. -/
def Obligations.ExpandiPerformsTheSwaps : Prop :=
  ∀ (s : State) (d : SlotNo) (tb : Table), ready (.expandi d) s = true → s.slot d = .live tb →
    s.suplen ≤ tb.n → (∀ v ∈ s.sup, v.toNat < tb.n) →
    ∃ (t : State) (stage : Nat → Table), exec (.expandi d) s = .next t ∧ stage s.suplen = tb ∧ t.slot d = .live (stage 0) ∧
      (∀ p v, s.sup[p]? = some v → (stage (p + 1)).IsSwap p v.toNat (stage p)) ∧ WroteSlotOnly d s t

/-- The round trip (R186): EXPANDI after MINBASEI gives back the table, for every table. -/
def Obligations.ExpandiUndoesMinbasei : Prop :=
  ∀ (s s1 : State) (d : SlotNo) (tb : Table), ready (.minbasei d) s = true → s.slot d = .live tb →
    exec (.minbasei d) s = .next s1 → ∃ s2, exec (.expandi d) s1 = .next s2 ∧ s2.slot d = .live tb ∧ s2.sup = s1.sup

/-! ### The resize/broadcast engine -/

/-- EXTFILL rewrites the table of slot `d` by the table of slot `s` extended to the arity of `d`, by replication (R196, R197),
also when the two slots are one: the word algorithms of R198 and R199 agree with the functional definition. -/
def Obligations.ExtfillReplicatesTheSource : Prop :=
  ∀ (s : State) (d src : SlotNo) (tb old : Table), ready (.extfill d src) s = true → s.slot d = .live old →
    s.slot src = .live tb → tb.n ≤ old.n →
    ∃ t u, exec (.extfill d src) s = .next t ∧ t.slot d = .live u ∧ tb.IsExt old.n u ∧ WroteSlotOnly d s t

/-- The laws of extension (R200), of the machine's own table functions: the identity, composition, and the round trip
through the cofactors of the new variables, which leave the extended table as it is, with the source in its low bits. -/
def Obligations.ExtensionLaws : Prop :=
  ∀ (t : Table) (n n' : Nat), t.wf = true → t.n ≤ n → n ≤ n' →
    t.extend t.n = t ∧ (t.extend n).extend n' = t.extend n' ∧
    (∀ v, t.n ≤ v → v < n → (t.extend n).cof0 v = t.extend n ∧ (t.extend n).cof1 v = t.extend n) ∧
    (∀ k, k < LEN n → (t.extend n).bit k = t.bit (k % LEN t.n))

/-! ### The shift and enumeration engine -/

/-- The value of a table and the table of a value are inverse (R15). -/
def Obligations.ValueAndTableInverse : Prop :=
  (∀ t : Table, t.wf = true → t.val < 2 ^ LEN t.n ∧ tbl t.n t.val = t ∧ ∀ k, t.val.testBit k = t.bit k) ∧
  (∀ n v : Nat, v < 2 ^ LEN n → (tbl n v).n = n ∧ (tbl n v).wf = true ∧ (tbl n v).val = v)

/-- NEXTI replaces the table by its successor in numeric order, wrapping silently (R211): R212 computes it. -/
def Obligations.NextiAddsOne : Prop :=
  ∀ (s : State) (d : SlotNo) (tb : Table), ready (.nexti d) s = true → s.slot d = .live tb →
    ∃ t, exec (.nexti d) s = .next t ∧ t.slot d = .live (tbl tb.n ((tb.val + 1) % 2 ^ LEN tb.n)) ∧ WroteSlotOnly d s t

/-- Enumeration (R213): from the all-zero table of `n` variables, `j` NEXTI commands give the table of value `j` modulo the
number of tables, so `2^(2^n)` of them come back to the all-zero table. -/
def Obligations.NextiEnumerates : Prop :=
  ∀ (s : State) (d : SlotNo) (n j : Nat), ready (.nexti d) s = true → s.slot d = .live (Table.zero n) →
    ∃ t, repeatExec (.nexti d) j s = .next t ∧ t.slot d = .live (tbl n (j % 2 ^ LEN n)) ∧
      (j = 2 ^ LEN n → t.slot d = .live (Table.zero n))

/-- SHLI shifts the whole bit vector by `wdata`, for every amount from 0 to `2^64 - 1`, as a function of the value and bit by
bit (R214): the regimes of R215, R216 and R217 compute it. -/
def Obligations.ShliShiftsTheVector : Prop :=
  ∀ (s : State) (d : SlotNo) (tb : Table), ready (.shli d) s = true → s.slot d = .live tb →
    ∃ t u, exec (.shli d) s = .next t ∧ t.slot d = .live u ∧ tb.IsShl s.cmd.wdata.toNat u ∧
      u = tbl tb.n (if LEN tb.n ≤ s.cmd.wdata.toNat then 0 else tb.val * 2 ^ s.cmd.wdata.toNat % 2 ^ LEN tb.n) ∧
      WroteSlotOnly d s t

/-- The laws of the shift (R218), of the machine's own table function. -/
def Obligations.ShiftLaws : Prop :=
  ∀ (t : Table) (a b : Nat), t.wf = true →
    t.shl 0 = t ∧ (LEN t.n ≤ a → t.shl a = Table.zero t.n) ∧ (t.shl a).shl b = t.shl (a + b) ∧ (t.shl a).ones ≤ t.ones

/-! ### The causes -/

/-- `SLOT_EMPTY` (R232): every command that needs a slot to be `LIVE` and finds it `EMPTY` takes the fault. -/
def Obligations.EmptySlotFaults : Prop :=
  ∀ (i : Instr) (s : State) (d : SlotNo), s.f = false → i.wf s.cfg = true → d ∈ needsLive i → s.slot d = .empty →
    exec i s = .next (faulted .slotEmpty s)

/-- `SLOT_LIVE` (R234): CREATE and COPY into a slot that is already `LIVE` take the fault; for COPY the source is live, since its
liveness is checked first (R105, R241). -/
def Obligations.LiveSlotFaults : Prop :=
  ∀ (s : State) (d : SlotNo) (tb : Table), s.f = false → s.slot d = .live tb →
    (∀ n, (Instr.create d n).wf s.cfg = true → exec (.create d n) s = .next (faulted .slotLive s)) ∧
    (∀ src tb', (Instr.copy d src).wf s.cfg = true → s.slot src = .live tb' →
      exec (.copy d src) s = .next (faulted .slotLive s))

/-- `ARITY` (R235): CREATE of an arity above `NMAX`, or not that of a fixed-arity slot, and COPY of another arity into a
fixed-arity slot take the fault. -/
def Obligations.ArityFaults : Prop :=
  ∀ (s : State) (d : SlotNo), s.f = false → s.slot d = .empty →
    (∀ n : SmallOp, (Instr.create d n).wf s.cfg = true →
      (s.cfg.nmax < n.toNat ∨ ∃ f, s.cfg.fixedArity d = some f ∧ n.toNat ≠ f) →
      exec (.create d n) s = .next (faulted .arity s)) ∧
    (∀ src tb f, (Instr.copy d src).wf s.cfg = true → s.slot src = .live tb → s.cfg.fixedArity d = some f → tb.n ≠ f →
      exec (.copy d src) s = .next (faulted .arity s))

/-- `BLK_RANGE` (R236): RDBLK and WRBLK with a block index at or above `NB(n)` take the fault. -/
def Obligations.BlockRangeFaults : Prop :=
  ∀ (s : State) (d : SlotNo) (idx : BlockIdx) (tb : Table), s.f = false → d.toNat < s.cfg.nt → s.slot d = .live tb →
    NB tb.n ≤ idx.toNat →
    exec (.rdblk d idx) s = .next (faulted .blkRange s) ∧ exec (.wrblk d idx) s = .next (faulted .blkRange s)

/-- `VAR_RANGE` (R237): a variable index at or above `num_vars`, for every command that takes one, with `i + 1` not wrapping,
and for EXPANDI a list longer than `n` or naming such a variable. -/
def Obligations.VariableRangeFaults : Prop :=
  ∀ (s : State) (d : SlotNo) (tb : Table), s.f = false → d.toNat < s.cfg.nt → s.slot d = .live tb →
    (∀ v : SmallOp, tb.n ≤ v.toNat →
      exec (.hasvar d v) s = .next (faulted .varRange s) ∧ exec (.cof0i d v) s = .next (faulted .varRange s) ∧
      exec (.cof1i d v) s = .next (faulted .varRange s) ∧ exec (.flipi d v) s = .next (faulted .varRange s)) ∧
    (∀ v : SmallOp, tb.n ≤ v.toNat + 1 → exec (.swapadji d v) s = .next (faulted .varRange s)) ∧
    (∀ v w : SmallOp, tb.n ≤ v.toNat ∨ tb.n ≤ w.toNat → exec (.swapi d v w) s = .next (faulted .varRange s)) ∧
    ((tb.n < s.suplen ∨ ∃ v ∈ s.sup, tb.n ≤ v.toNat) → exec (.expandi d) s = .next (faulted .varRange s))

/-- `EXTEND_RANGE` (R238): EXTFILL into a table of fewer variables than the source takes the fault. -/
def Obligations.ExtendRangeFaults : Prop :=
  ∀ (s : State) (d src : SlotNo) (tb old : Table), s.f = false → (Instr.extfill d src).wf s.cfg = true →
    s.slot d = .live old → s.slot src = .live tb → old.n < tb.n → exec (.extfill d src) s = .next (faulted .extendRange s)

/-- `SUP_RANGE` (R239): SUPPUSH on a full list and RDSUP of a position at or past the length take the fault. -/
def Obligations.SupportRangeFaults : Prop :=
  ∀ s : State, s.f = false →
    (∀ v : SmallOp, s.suplen = s.cfg.nmax → exec (.suppush v) s = .next (faulted .supRange s)) ∧
    (∀ p : SmallOp, s.suplen ≤ p.toNat → exec (.rdsup p) s = .next (faulted .supRange s))

/-! ### The pseudo-instructions -/

/-- A pseudo-instruction changes no slot but its destination (R92): when the host presents its two commands, whatever comes of
them, every other slot, the source among them, is as before. -/
def Obligations.PseudoKeepsTheSource : Prop :=
  ∀ (p : Pseudo) (s t : State) (e : SlotNo), s.pending = expandPseudo p → runSteps 2 s = .next t → e ≠ pseudoDest p →
    SlotSame e s t

/-- The pure cofactor (R92): `COF0 Td, Ts, i` with `Ts` live, `Td` empty and accepting its arity, and `i` in range, leaves the
cofactor in `Td` and the table in `Ts`. That nothing is left in `pending`, and that the two answers join `outputs`, is the
model's bookkeeping (notes/assumptions/3.md). -/
def Obligations.PureCofactorCopiesFirst : Prop :=
  ∀ (s : State) (d src : SlotNo) (v : SmallOp) (tb : Table), ready (.copy d src) s = true → s.slot src = .live tb →
    s.slot d = .empty → (∀ f, s.cfg.fixedArity d = some f → tb.n = f) → v.toNat < tb.n →
    s.pending = expandPseudo (.cof0 d src v) →
    ∃ t u, runSteps 2 s = .next t ∧ t.slot d = .live u ∧ tb.IsCof0 v.toNat u ∧ t.slot src = .live tb ∧
      t.pending = [] ∧ t.outputs = s.outputs ++ [0, 0]
end

