-- ==== Sys2Proof/Laws/Index.lean ====
section
/-! SUPPORT. Bit indices: what the index maps of the functional definitions do to the bits of an index, to its block number
`k / 64` and to its position `k % 64`, and that they keep an index below `2^n`. -/

namespace Sys2Proof.Machine

theorem testBit_div64 (k m : Nat) : (k / 64).testBit m = k.testBit (m + 6) := by
  have h := Nat.testBit_div_two_pow k (i := m) (n := 6)
  simpa using h

theorem testBit_mod64 (k m : Nat) : (k % 64).testBit m = (decide (m < 6) && k.testBit m) := by
  have h := Nat.testBit_mod_two_pow k 6 m
  simpa using h

theorem testBit_of_lt_two_pow {k n m : Nat} (h : k < 2 ^ n) (hm : n ≤ m) : k.testBit m = false :=
  Nat.testBit_lt_two_pow (lt_of_lt_of_le h (Nat.pow_le_pow_right (by norm_num) hm))

/-- A number is below `2^n` when all its bits at and above `n` are 0. -/
theorem lt_two_pow_of_bits {k n : Nat} (h : ∀ m, n ≤ m → k.testBit m = false) : k < 2 ^ n :=
  Nat.lt_pow_two_of_testBit k h

/-- A number at or above `2^n` has a bit set at or above `n`. -/
theorem exists_bit_of_two_pow_le {k n : Nat} (h : 2 ^ n ≤ k) : ∃ m, n ≤ m ∧ k.testBit m = true := by
  by_contra hc
  push Not at hc
  have := lt_two_pow_of_bits (k := k) (n := n) (fun m hm => by simpa using hc m hm)
  omega

theorem testBit_idxClear (k i m : Nat) : (idxClear k i).testBit m = (k.testBit m && decide (m ≠ i)) := by
  simp only [idxClear, Nat.testBit_xor, Nat.testBit_and, Nat.testBit_two_pow]
  by_cases h : i = m <;> cases k.testBit m <;> simp [h, eq_comm]

theorem testBit_idxSet (k i m : Nat) : (idxSet k i).testBit m = (k.testBit m || decide (m = i)) := by
  simp only [idxSet, Nat.testBit_or, Nat.testBit_two_pow, eq_comm]

theorem testBit_idxFlip (k i m : Nat) : (idxFlip k i).testBit m = (k.testBit m ^^ decide (m = i)) := by
  simp only [idxFlip, Nat.testBit_xor, Nat.testBit_two_pow, eq_comm]

theorem testBit_idxExchange (k i j m : Nat) :
    (idxExchange k i j).testBit m = if m = i then k.testBit j else if m = j then k.testBit i else k.testBit m := by
  unfold idxExchange
  split
  · next h => split_ifs <;> simp_all
  · next h =>
    simp only [Nat.testBit_xor, Nat.testBit_two_pow]
    by_cases hi : m = i
    · subst hi
      have hij : ¬ j = m := by rintro rfl; simp at h
      revert h; cases k.testBit m <;> cases k.testBit j <;> simp [hij]
    · by_cases hj : m = j
      · subst hj
        have hi' : ¬ i = m := fun e => hi e.symm
        revert h; cases k.testBit m <;> cases k.testBit i <;> simp [hi, hi']
      · simp [hi, hj, Ne.symm hi, Ne.symm hj]

theorem idxExchange_comm (k i j : Nat) : idxExchange k i j = idxExchange k j i := by
  apply Nat.eq_of_testBit_eq
  intro m
  simp only [testBit_idxExchange]
  split_ifs <;> simp_all

theorem idxExchange_self (k i : Nat) : idxExchange k i i = k := by
  simp [idxExchange]

/-! ### The maps keep an index below `2^n`, and keep one at or above it there -/

/-- An index map that acts on the bits below `n` only: it neither brings an index across `2^n` nor lets one fall below. -/
structure Below (n : Nat) (g : Nat → Nat) : Prop where
  lt : ∀ k, k < 2 ^ n → g k < 2 ^ n
  ge : ∀ k, 2 ^ n ≤ k → 2 ^ n ≤ g k

theorem below_of_bits {n : Nat} {g : Nat → Nat} (h : ∀ k m, n ≤ m → (g k).testBit m = k.testBit m) : Below n g where
  lt k hk := lt_two_pow_of_bits fun m hm => by rw [h k m hm]; exact testBit_of_lt_two_pow hk hm
  ge k hk := by
    obtain ⟨m, hm, hb⟩ := exists_bit_of_two_pow_le hk
    exact Nat.le_trans (Nat.pow_le_pow_right (by norm_num) hm) (Nat.ge_two_pow_of_testBit (by rw [h k m hm]; exact hb))

theorem below_idxClear {n i : Nat} (hi : i < n) : Below n (fun k => idxClear k i) :=
  below_of_bits fun k m hm => by rw [testBit_idxClear]; simp; omega

theorem below_idxSet {n i : Nat} (hi : i < n) : Below n (fun k => idxSet k i) :=
  below_of_bits fun k m hm => by rw [testBit_idxSet]; simp; omega

theorem below_idxFlip {n i : Nat} (hi : i < n) : Below n (fun k => idxFlip k i) :=
  below_of_bits fun k m hm => by
    rw [testBit_idxFlip, decide_eq_false (show ¬ m = i by omega), Bool.xor_false]

theorem below_idxExchange {n i j : Nat} (hi : i < n) (hj : j < n) : Below n (fun k => idxExchange k i j) :=
  below_of_bits fun k m hm => by
    rw [testBit_idxExchange, if_neg (by omega), if_neg (by omega)]

/-! ### In-word maps: bits below 6 -/

/-- An index map that acts on the position inside a block only. -/
structure InWord (g : Nat → Nat) : Prop where
  div : ∀ k, g k / 64 = k / 64
  mod : ∀ k, g k % 64 = g (k % 64)

theorem inWord_of_bits {g : Nat → Nat} (h6 : ∀ k m, 6 ≤ m → (g k).testBit m = k.testBit m)
    (hl : ∀ k m, m < 6 → (g k).testBit m = (g (k % 64)).testBit m) : InWord g where
  div k := Nat.eq_of_testBit_eq fun m => by rw [testBit_div64, testBit_div64, h6 k _ (by omega)]
  mod k := Nat.eq_of_testBit_eq fun m => by
    rw [testBit_mod64]
    by_cases hm : m < 6
    · simp [hm, hl k m hm]
    · simp [hm, h6 (k % 64) m (by omega), testBit_mod64]

theorem inWord_idxClear {i : Nat} (hi : i < 6) : InWord (fun k => idxClear k i) :=
  inWord_of_bits (fun k m hm => by rw [testBit_idxClear]; simp; omega)
    (fun k m hm => by simp [testBit_idxClear, testBit_mod64, hm])

theorem inWord_idxSet {i : Nat} (hi : i < 6) : InWord (fun k => idxSet k i) :=
  inWord_of_bits (fun k m hm => by rw [testBit_idxSet]; simp; omega)
    (fun k m hm => by simp [testBit_idxSet, testBit_mod64, hm])

theorem inWord_idxFlip {i : Nat} (hi : i < 6) : InWord (fun k => idxFlip k i) :=
  inWord_of_bits
    (fun k m hm => by rw [testBit_idxFlip, decide_eq_false (show ¬ m = i by omega), Bool.xor_false])
    (fun k m hm => by simp [testBit_idxFlip, testBit_mod64, hm])

theorem inWord_idxExchange {i j : Nat} (hi : i < 6) (hj : j < 6) : InWord (fun k => idxExchange k i j) :=
  inWord_of_bits
    (fun k m hm => by rw [testBit_idxExchange, if_neg (by omega), if_neg (by omega)])
    (fun k m hm => by simp [testBit_idxExchange, testBit_mod64, hm, hi, hj])

/-! ### Block maps: the bits of the block number -/

theorem idxClear_div (k : Nat) {i : Nat} (hi : 6 ≤ i) : idxClear k i / 64 = idxClear (k / 64) (i - 6) :=
  Nat.eq_of_testBit_eq fun m => by
    simp only [testBit_div64, testBit_idxClear]
    congr 2
    exact propext ⟨fun h => by omega, fun h => by omega⟩

theorem idxClear_mod (k : Nat) {i : Nat} (hi : 6 ≤ i) : idxClear k i % 64 = k % 64 :=
  Nat.eq_of_testBit_eq fun m => by
    by_cases hm : m < 6
    · simp [testBit_mod64, testBit_idxClear, hm]; omega
    · simp [testBit_mod64, hm]

theorem idxSet_div (k : Nat) {i : Nat} (hi : 6 ≤ i) : idxSet k i / 64 = idxSet (k / 64) (i - 6) :=
  Nat.eq_of_testBit_eq fun m => by
    simp only [testBit_div64, testBit_idxSet]
    congr 2
    exact propext ⟨fun h => by omega, fun h => by omega⟩

theorem idxSet_mod (k : Nat) {i : Nat} (hi : 6 ≤ i) : idxSet k i % 64 = k % 64 :=
  Nat.eq_of_testBit_eq fun m => by
    by_cases hm : m < 6
    · simp [testBit_mod64, testBit_idxSet, hm]; omega
    · simp [testBit_mod64, hm]

theorem idxFlip_div (k : Nat) {i : Nat} (hi : 6 ≤ i) : idxFlip k i / 64 = idxFlip (k / 64) (i - 6) :=
  Nat.eq_of_testBit_eq fun m => by
    simp only [testBit_div64, testBit_idxFlip]
    congr 2
    exact propext ⟨fun h => by omega, fun h => by omega⟩

theorem idxFlip_mod (k : Nat) {i : Nat} (hi : 6 ≤ i) : idxFlip k i % 64 = k % 64 :=
  Nat.eq_of_testBit_eq fun m => by
    by_cases hm : m < 6
    · rw [testBit_mod64, testBit_mod64, testBit_idxFlip, decide_eq_false (show ¬ m = i by omega), Bool.xor_false]
    · simp [testBit_mod64, hm]

theorem idxExchange_div (k : Nat) {i j : Nat} (hi : 6 ≤ i) (hj : 6 ≤ j) :
    idxExchange k i j / 64 = idxExchange (k / 64) (i - 6) (j - 6) :=
  Nat.eq_of_testBit_eq fun m => by
    simp only [testBit_div64, testBit_idxExchange, Nat.sub_add_cancel hi, Nat.sub_add_cancel hj]
    by_cases h1 : m = i - 6
    · rw [if_pos (by omega), if_pos h1]
    · rw [if_neg (by omega), if_neg h1]
      by_cases h2 : m = j - 6
      · rw [if_pos (by omega), if_pos h2]
      · rw [if_neg (by omega), if_neg h2]

theorem idxExchange_mod (k : Nat) {i j : Nat} (hi : 6 ≤ i) (hj : 6 ≤ j) : idxExchange k i j % 64 = k % 64 :=
  Nat.eq_of_testBit_eq fun m => by
    by_cases hm : m < 6
    · rw [testBit_mod64, testBit_mod64, testBit_idxExchange, if_neg (by omega), if_neg (by omega)]
    · simp [testBit_mod64, hm]

/-- Numbers with no common bit are added by joining their bits. -/
theorem or_eq_add_of_disjoint {a b : Nat} (h : a &&& b = 0) : a ||| b = a + b := by
  have hlt : a + b < 2 ^ (a + b) := Nat.lt_two_pow_self
  have e := BitVec.add_eq_or_of_and_eq_zero (BitVec.ofNat (a + b) a) (BitVec.ofNat (a + b) b)
    (by rw [← BitVec.ofNat_and, h])
  have e' := congrArg BitVec.toNat e
  rw [← BitVec.ofNat_add, ← BitVec.ofNat_or, BitVec.toNat_ofNat, BitVec.toNat_ofNat, Nat.mod_eq_of_lt hlt,
    Nat.mod_eq_of_lt (Nat.or_lt_two_pow (by omega) (by omega))] at e'
  exact e'.symm

/-! ### A bit toggled by adding or subtracting its weight -/

theorem idxFlip_of_set {b m : Nat} (h : b.testBit m = true) : idxFlip b m = b - 2 ^ m := by
  have hle : 2 ^ m ≤ b := Nat.ge_two_pow_of_testBit h
  have key : idxFlip b m + 2 ^ m = b := by
    have hand : idxFlip b m &&& 2 ^ m = 0 := by
      apply Nat.eq_of_testBit_eq
      intro j
      simp only [Nat.testBit_and, testBit_idxFlip, Nat.testBit_two_pow, Nat.zero_testBit]
      by_cases hj : m = j
      · subst hj; simp [h]
      · simp [hj]
    rw [← or_eq_add_of_disjoint hand]
    apply Nat.eq_of_testBit_eq
    intro j
    simp only [Nat.testBit_or, testBit_idxFlip, Nat.testBit_two_pow]
    by_cases hj : m = j
    · subst hj; simp [h]
    · simp [hj, Ne.symm hj]
  omega

theorem idxFlip_of_clear {b m : Nat} (h : b.testBit m = false) : idxFlip b m = b + 2 ^ m := by
  have hand : b &&& 2 ^ m = 0 := by
    apply Nat.eq_of_testBit_eq
    intro j
    simp only [Nat.testBit_and, Nat.testBit_two_pow, Nat.zero_testBit]
    by_cases hj : m = j
    · subst hj; simp [h]
    · simp [hj]
  rw [← or_eq_add_of_disjoint hand]
  apply Nat.eq_of_testBit_eq
  intro j
  simp only [Nat.testBit_or, testBit_idxFlip, Nat.testBit_two_pow]
  by_cases hj : m = j
  · subst hj; simp [h]
  · simp [hj, Ne.symm hj]

theorem idxClear_eq (b m : Nat) : idxClear b m = if b.testBit m then b - 2 ^ m else b := by
  split
  · next h =>
    rw [← idxFlip_of_set h]
    apply Nat.eq_of_testBit_eq
    intro j
    rw [testBit_idxClear, testBit_idxFlip]
    by_cases hj : j = m
    · subst hj; simp [h]
    · simp [hj]
  · next h =>
    apply Nat.eq_of_testBit_eq
    intro j
    rw [testBit_idxClear]
    by_cases hj : j = m
    · subst hj; simp_all
    · simp [hj]

theorem idxSet_eq (b m : Nat) : idxSet b m = if b.testBit m then b else b + 2 ^ m := by
  split
  · next h =>
    apply Nat.eq_of_testBit_eq
    intro j
    rw [testBit_idxSet]
    by_cases hj : j = m
    · subst hj; simp [h]
    · simp [hj]
  · next h =>
    rw [← idxFlip_of_clear (by simpa using h)]
    apply Nat.eq_of_testBit_eq
    intro j
    rw [testBit_idxSet, testBit_idxFlip]
    by_cases hj : j = m
    · subst hj; simp_all
    · simp [hj]

theorem idxFlip_eq (b m : Nat) : idxFlip b m = if b.testBit m then b - 2 ^ m else b + 2 ^ m := by
  split
  · next h => exact idxFlip_of_set h
  · next h => exact idxFlip_of_clear (by simpa using h)

end Sys2Proof.Machine
end

