-- ==== Sys2Proof/Laws/Table.lean ====
section
/-! SUPPORT. Table values: blocks and bits, well-formedness, equality by bits, and the two shapes of an engine command
(`mapWords`, `rebuild`), once for all commands. -/

namespace Sys2Proof.Machine

/-! ### Arities -/

theorem NB_pos (n : Nat) : 0 < NB n := Nat.two_pow_pos _

theorem NB_of_le {n : Nat} (h : n ≤ 6) : NB n = 1 := by
  simp [NB, Nat.sub_eq_zero_of_le h]

theorem LEN_eq {n : Nat} (h : 6 ≤ n) : LEN n = 64 * NB n := by
  obtain ⟨m, rfl⟩ := Nat.exists_eq_add_of_le h
  simp [LEN, NB, Nat.pow_add]

theorem LEN_le {n : Nat} (h : n ≤ 6) : LEN n ≤ 64 :=
  Nat.pow_le_pow_right (n := 2) (by norm_num) h

theorem LEN_ge {n : Nat} (h : 6 ≤ n) : 64 ≤ LEN n :=
  Nat.pow_le_pow_right (n := 2) (by norm_num) h

theorem div_lt_NB {n k : Nat} (h : k < LEN n) : k / 64 < NB n := by
  by_cases hn : n ≤ 6
  · have := LEN_le hn; rw [NB_of_le hn]; omega
  · have := LEN_eq (n := n) (by omega); omega

theorem lenMask_bit (n p : Nat) (hp : p < 64) : (lenMask n).getLsbD p = decide (p < LEN n) := by
  unfold lenMask
  split
  · next h =>
    rw [BitVec.getLsbD_ofNat, Nat.testBit_two_pow_sub_one, decide_eq_true hp, Bool.true_and]
    rfl
  · next h =>
    have : 64 ≤ LEN n := LEN_ge (by omega)
    rw [BitVec.getLsbD_allOnes, decide_eq_true hp, decide_eq_true (by omega)]

/-! ### Well-formedness in terms of bits -/

theorem Table.wf_iff (t : Table) :
    t.wf = true ↔ t.blk.length = NB t.n ∧ ∀ p, p < 64 → LEN t.n ≤ p → (t.block 0).getLsbD p = false := by
  simp only [Table.wf, Bool.and_eq_true, decide_eq_true_eq]
  refine and_congr_right fun _ => ⟨fun h p hp hle => ?_, fun h hn => ?_⟩
  · by_cases hn : t.n < 6
    · have hb := congrArg (fun w : Block => w.getLsbD p) (h hn)
      simp only [BitVec.getLsbD_and, BitVec.getLsbD_not, lenMask_bit t.n p hp] at hb
      simpa [hp, Nat.not_lt.mpr hle] using hb
    · have : 64 ≤ LEN t.n := LEN_ge (by omega)
      omega
  · apply BitVec.eq_of_getLsbD_eq
    intro p hp
    simp only [BitVec.getLsbD_and, BitVec.getLsbD_not, lenMask_bit t.n p hp]
    by_cases hle : p < LEN t.n
    · simp [hle]
    · simp [h p hp (by omega)]

theorem Table.length_of_wf {t : Table} (h : t.wf = true) : t.blk.length = NB t.n := ((Table.wf_iff t).1 h).1

/-- A bit at or above `2^n` of block 0 is 0: the masking invariant, bit by bit. -/
theorem Table.stray_of_wf {t : Table} (h : t.wf = true) {p : Nat} (hp : p < 64) (hle : LEN t.n ≤ p) :
    (t.block 0).getLsbD p = false := ((Table.wf_iff t).1 h).2 p hp hle

/-- With six variables or more there is no stray bit. -/
theorem Table.wf_of_six_le {t : Table} (hn : 6 ≤ t.n) (hl : t.blk.length = NB t.n) : t.wf = true := by
  rw [Table.wf_iff]
  refine ⟨hl, fun p hp hle => ?_⟩
  have : 64 ≤ LEN t.n := LEN_ge hn
  omega

theorem Table.bit_block (t : Table) (b p : Nat) (hp : p < 64) : t.bit (64 * b + p) = (t.block b).getLsbD p := by
  unfold Table.bit
  rw [show (64 * b + p) / 64 = b by omega, show (64 * b + p) % 64 = p by omega]

/-- A bit past the end of a well-formed table is 0. -/
theorem Table.bit_of_ge {t : Table} (h : t.wf = true) {k : Nat} (hk : LEN t.n ≤ k) : t.bit k = false := by
  by_cases hb : k / 64 = 0
  · unfold Table.bit
    rw [hb]
    exact Table.stray_of_wf h (by omega) (by omega)
  · have hge : NB t.n ≤ k / 64 := by
      by_cases hn : t.n ≤ 6
      · rw [NB_of_le hn]; omega
      · have := LEN_eq (n := t.n) (by omega); omega
    unfold Table.bit Table.block
    rw [List.getD_eq_default _ _ (by rw [Table.length_of_wf h]; exact hge)]
    simp

/-- Well-formed tables of one arity with the same bits are equal. -/
theorem Table.ext_bits {t u : Table} (ht : t.wf = true) (hu : u.wf = true) (hn : t.n = u.n)
    (h : ∀ k, k < LEN t.n → t.bit k = u.bit k) : t = u := by
  have hall : ∀ k, t.bit k = u.bit k := fun k => by
    by_cases hk : k < LEN t.n
    · exact h k hk
    · rw [Table.bit_of_ge ht (by omega), Table.bit_of_ge hu (by rw [← hn]; omega)]
  have hblk : t.blk = u.blk := by
    apply List.ext_getElem (by rw [Table.length_of_wf ht, Table.length_of_wf hu, hn])
    intro b h1 h2
    have e1 : t.block b = t.blk[b] := List.getD_eq_getElem _ _ h1
    have e2 : u.block b = u.blk[b] := List.getD_eq_getElem _ _ h2
    rw [← e1, ← e2]
    apply BitVec.eq_of_getLsbD_eq
    intro p hp
    rw [← Table.bit_block t b p hp, ← Table.bit_block u b p hp, hall]
  cases t; cases u; simp_all

theorem Table.IsBits.unique {u v : Table} {n : Nat} {g : Nat → Bool} (hu : u.IsBits n g) (hv : v.IsBits n g) : u = v :=
  Table.ext_bits hu.2.1 hv.2.1 (hu.1.trans hv.1.symm) fun k hk => by
    rw [hu.2.2 k (hu.1 ▸ hk), hv.2.2 k (hu.1 ▸ hk)]

/-! ### The two shapes of an engine command -/

@[simp] theorem Table.mapWords_n (t : Table) (g : Block → Block) : (t.mapWords g).n = t.n := rfl

@[simp] theorem Table.rebuild_n (t : Table) (g : Nat → Block) : (t.rebuild g).n = t.n := rfl

@[simp] theorem Table.setBlock_n (t : Table) (b : Nat) (w : Block) : (t.setBlock b w).n = t.n := rfl

@[simp] theorem Table.zero_n (n : Nat) : (Table.zero n).n = n := rfl

theorem Table.block_mapWords (t : Table) (g : Block → Block) {b : Nat} (hb : b < t.blk.length) :
    (t.mapWords g).block b = g (t.block b) := by
  simp [Table.block, Table.mapWords, hb]

theorem Table.block_rebuild (t : Table) (g : Nat → Block) {b : Nat} (hb : b < NB t.n) :
    (t.rebuild g).block b = g b := by
  simp [Table.block, Table.rebuild, hb]

theorem Table.length_rebuild (t : Table) (g : Nat → Block) : (t.rebuild g).blk.length = NB t.n := by
  simp [Table.rebuild]

theorem Table.block_setBlock (t : Table) {b : Nat} (hb : b < t.blk.length) (w : Block) (c : Nat) :
    (t.setBlock b w).block c = if c = b then w else t.block c := by
  simp only [Table.block, Table.setBlock, List.getD_eq_getElem?_getD, List.getElem?_set]
  by_cases h : c = b
  · subst h; simp [hb]
  · simp [h, Ne.symm h]

/-- One spec for every in-word regime: a pass that takes bit `p` of each word from bit `g p`, for an index map `g` that acts
inside a word and below `n`, gives the table whose bit `k` is bit `g k` of the old one. -/
theorem Table.mapWords_isBits {t : Table} (h : t.wf = true) {pass : Block → Block} {g : Nat → Nat} (hg : InWord g)
    (hb : Below t.n g) (hp : ∀ w p, p < 64 → (pass w).getLsbD p = w.getLsbD (g p)) :
    (t.mapWords pass).IsBits t.n (fun k => t.bit (g k)) := by
  have hlt : ∀ p, p < 64 → g p < 64 := fun p h64 => by have := hg.div p; omega
  refine ⟨rfl, ?_, fun k hk => ?_⟩
  · rw [Table.wf_iff]
    refine ⟨by simp [Table.mapWords, Table.length_of_wf h], fun p h64 hle => ?_⟩
    rw [Table.block_mapWords t pass (by rw [Table.length_of_wf h]; exact NB_pos _), hp _ p h64]
    exact Table.stray_of_wf h (hlt p h64) (hb.ge p hle)
  · have hm : k % 64 < 64 := Nat.mod_lt _ (by norm_num)
    show _ = t.bit (g k)
    unfold Table.bit
    rw [Table.block_mapWords t pass (by rw [Table.length_of_wf h]; exact div_lt_NB hk), hp _ _ hm, hg.div, hg.mod]

/-- One spec for every block regime: block `c` of the new table gives bit `64 c + p` its value. -/
theorem Table.rebuild_isBits {t : Table} (hn : 6 ≤ t.n) {new : Nat → Block} {g : Nat → Bool}
    (hw : ∀ k, k < LEN t.n → (new (k / 64)).getLsbD (k % 64) = g k) : (t.rebuild new).IsBits t.n g := by
  refine ⟨rfl, Table.wf_of_six_le hn (Table.length_rebuild t new), fun k hk => ?_⟩
  unfold Table.bit
  rw [Table.block_rebuild t new (div_lt_NB hk)]
  exact hw k hk

/-! ### The all-zero table -/

theorem Table.zero_block (n b : Nat) : (Table.zero n).block b = 0 := by
  simp only [Table.block, Table.zero, List.getD_eq_getElem?_getD, List.getElem?_replicate]
  split <;> rfl

theorem Table.zero_wf (n : Nat) : (Table.zero n).wf = true := by
  rw [Table.wf_iff]
  exact ⟨by simp [Table.zero], fun p _ _ => by simp [Table.zero_block]⟩

theorem Table.zero_bit (n k : Nat) : (Table.zero n).bit k = false := by
  simp [Table.bit, Table.zero_block]

/-- One block written through the mask keeps a table well formed. -/
theorem Table.setBlock_masked_wf {t : Table} (h : t.wf = true) {b : Nat} (hb : b < NB t.n) (w : Block) :
    (t.setBlock b (w &&& lenMask t.n)).wf = true := by
  have hl := Table.length_of_wf h
  rw [Table.wf_iff]
  refine ⟨by simp [Table.setBlock, hl], fun p hp hle => ?_⟩
  rw [Table.block_setBlock t (by omega)]
  split
  · rw [BitVec.getLsbD_and, lenMask_bit _ _ hp, decide_eq_false (show ¬ p < LEN t.n from Nat.not_lt.mpr hle), Bool.and_false]
  · exact Table.stray_of_wf h hp hle

end Sys2Proof.Machine
end

