-- ==== Sys2Proof/Laws/Words.lean ====
section
/-! SUPPORT. The mask tables bit by bit, and what each pass over one word does to its bits. -/

namespace Sys2Proof.Machine

/-- `PROJ[i]` has bit `p` exactly where bit `i` of `p` is 1. -/
theorem proj_bit : ∀ i < 6, ∀ p < 64, (proj i).getLsbD p = p.testBit i := by decide +kernel

/-- `NPROJ[i]` has bit `p` exactly where bit `i` of `p` is 0. -/
theorem nproj_bit : ∀ i < 6, ∀ p < 64, (nproj i).getLsbD p = !p.testBit i := by decide +kernel

theorem borrow_testBit : ∀ i < 6, ∀ p < 64, 2 ^ i ≤ p → p.testBit i = false → (p - 2 ^ i).testBit i = true := by
  decide +kernel

theorem set_le_lt : ∀ i < 6, ∀ p < 64, p.testBit i = true → 2 ^ i ≤ p := by decide +kernel

theorem clear_add_lt : ∀ i < 6, ∀ p < 64, p.testBit i = false → p + 2 ^ i < 64 := by decide +kernel

theorem wordCof0_bit {i p : Nat} (hi : i < 6) (hp : p < 64) (w : Block) :
    (wordCof0 i w).getLsbD p = w.getLsbD (idxClear p i) := by
  have hs : p - 2 ^ i < 64 := Nat.lt_of_le_of_lt (Nat.sub_le _ _) hp
  rw [idxClear_eq]
  simp only [wordCof0, BitVec.getLsbD_or, BitVec.getLsbD_and, BitVec.getLsbD_shiftLeft, nproj_bit i hi p hp,
    nproj_bit i hi (p - 2 ^ i) hs]
  cases hb : p.testBit i
  · by_cases hle : 2 ^ i ≤ p
    · simp [borrow_testBit i hi p hp hle hb]
    · simp [hle]
  · have hle := set_le_lt i hi p hp hb
    have hc : (p - 2 ^ i).testBit i = false := by rw [← idxFlip_of_set hb, testBit_idxFlip]; simp [hb]
    simp [hc, hp, hle]

theorem wordCof1_bit {i p : Nat} (hi : i < 6) (hp : p < 64) (w : Block) :
    (wordCof1 i w).getLsbD p = w.getLsbD (idxSet p i) := by
  rw [idxSet_eq]
  simp only [wordCof1, BitVec.getLsbD_or, BitVec.getLsbD_and, BitVec.getLsbD_ushiftRight, proj_bit i hi p hp]
  cases hb : p.testBit i
  · have hlt := clear_add_lt i hi p hp hb
    rw [proj_bit i hi (2 ^ i + p) (by omega), Nat.testBit_two_pow_add_eq, hb]
    simp [Nat.add_comm]
  · by_cases hlt : 2 ^ i + p < 64
    · rw [proj_bit i hi (2 ^ i + p) hlt, Nat.testBit_two_pow_add_eq, hb]
      simp
    · simp [BitVec.getLsbD_of_ge w (2 ^ i + p) (by omega)]

theorem wordFlip_bit {i p : Nat} (hi : i < 6) (hp : p < 64) (w : Block) :
    (wordFlip i w).getLsbD p = w.getLsbD (idxFlip p i) := by
  rw [idxFlip_eq]
  simp only [wordFlip, BitVec.getLsbD_or, BitVec.getLsbD_and, BitVec.getLsbD_ushiftRight, BitVec.getLsbD_shiftLeft,
    proj_bit i hi p hp, nproj_bit i hi p hp]
  cases hb : p.testBit i
  · simp [Nat.add_comm]
  · have hle := set_le_lt i hi p hp hb
    simp [hp, hle]

/-- The rows of `PPERM`: the three masks are disjoint and cover the word, and each names the source position of its
destination positions. -/
theorem pperm_bit : ∀ j < 6, ∀ i < j, ∀ p < 64,
    (pperm i j).stay.getLsbD p = (p.testBit i == p.testBit j) ∧
    (pperm i j).up.getLsbD p = (p.testBit i && !p.testBit j) ∧
    (pperm i j).down.getLsbD p = (!p.testBit i && p.testBit j) := by decide +kernel

/-- Where the moved bits of an interleave pass come from. -/
theorem pperm_source : ∀ j < 6, ∀ i < j, ∀ p < 64,
    (decide (shiftDist i j ≤ p) && (pperm i j).up.getLsbD (p - shiftDist i j)) = (pperm i j).down.getLsbD p ∧
    (pperm i j).down.getLsbD (shiftDist i j + p) = (pperm i j).up.getLsbD p ∧
    idxExchange p i j = (if (pperm i j).down.getLsbD p then p - shiftDist i j
      else if (pperm i j).up.getLsbD p then shiftDist i j + p else p) := by decide +kernel

theorem interleave_bit {i j p : Nat} (hij : i < j) (hj : j < 6) (hp : p < 64) (w : Block) :
    (interleave (pperm i j) (shiftDist i j) w).getLsbD p = w.getLsbD (idxExchange p i j) := by
  obtain ⟨h1, h2, h3⟩ := pperm_source j hj i hij p hp
  obtain ⟨b1, b2, b3⟩ := pperm_bit j hj i hij p hp
  rw [h3]
  simp only [interleave, BitVec.getLsbD_or, BitVec.getLsbD_and, BitVec.getLsbD_ushiftRight, BitVec.getLsbD_shiftLeft]
  have e : (decide (p < 64) && !decide (p < shiftDist i j) &&
      (w.getLsbD (p - shiftDist i j) && (pperm i j).up.getLsbD (p - shiftDist i j)))
      = (w.getLsbD (p - shiftDist i j) && (pperm i j).down.getLsbD p) := by
    rw [← h1]
    by_cases hle : shiftDist i j ≤ p
    · simp [hp, hle]
    · simp [hle]
  rw [e, h2, b1, b2, b3]
  cases p.testBit i <;> cases p.testBit j <;> simp

theorem perm_shift (i : Nat) : shiftDist i (i + 1) = 2 ^ i := by
  simp [shiftDist, Nat.pow_succ]; omega

/-- The low half of a word, selected by the constant of regime (b). -/
theorem lowHalf_bit : ∀ p < 64, (0x00000000FFFFFFFF : Block).getLsbD p = decide (p < 32) := by decide +kernel

theorem highHalf_bit : ∀ p < 64, (0xFFFFFFFF00000000 : Block).getLsbD p = decide (32 ≤ p) := by decide +kernel

end Sys2Proof.Machine
end

