-- ==== Sys2Proof/Laws/Cofactor.lean ====
section
/-! SUPPORT. The cofactor engine's word algorithms compute their functional definitions: one lemma per table function. -/

namespace Sys2Proof.Machine

/-- Block variable `i` of the block that holds table bit `k` is bit `i` of `k`. -/
theorem blockVar_div {i : Nat} (hi : 6 ≤ i) (k : Nat) : blockVar i (k / 64) = k.testBit i := by
  rw [blockVar, testBit_div64, Nat.sub_add_cancel hi]

/-- R136 computes R135. -/
theorem Table.cof0_isCof0 {t : Table} (h : t.wf = true) {i : Nat} (hi : i < t.n) : t.IsCof0 i (t.cof0 i) := by
  unfold Table.IsCof0 Table.cof0
  split
  · next h6 =>
    exact Table.mapWords_isBits h (inWord_idxClear h6) (below_idxClear hi) fun w p hp => wordCof0_bit h6 hp w
  · next h6 =>
    refine Table.rebuild_isBits (by omega) fun k _ => ?_
    simp only [Table.bit, idxClear_div k (show 6 ≤ i by omega), idxClear_mod k (show 6 ≤ i by omega)]
    rw [show idxClear (k / 64) (i - 6) = if blockVar i (k / 64) then k / 64 - stride i else k / 64 from idxClear_eq _ _]
    split_ifs <;> rfl

/-- R139 computes R138. -/
theorem Table.cof1_isCof1 {t : Table} (h : t.wf = true) {i : Nat} (hi : i < t.n) : t.IsCof1 i (t.cof1 i) := by
  unfold Table.IsCof1 Table.cof1
  split
  · next h6 =>
    exact Table.mapWords_isBits h (inWord_idxSet h6) (below_idxSet hi) fun w p hp => wordCof1_bit h6 hp w
  · next h6 =>
    refine Table.rebuild_isBits (by omega) fun k _ => ?_
    simp only [Table.bit, idxSet_div k (show 6 ≤ i by omega), idxSet_mod k (show 6 ≤ i by omega)]
    rw [show idxSet (k / 64) (i - 6) = if blockVar i (k / 64) then k / 64 else k / 64 + stride i from idxSet_eq _ _]
    split_ifs <;> rfl

/-- The in-word test finds a difference exactly when some bit of the word differs from its partner. -/
theorem wordDepends_iff {i : Nat} (hi : i < 6) (w : Block) :
    wordDepends i w = true ↔ ∃ p, p < 64 ∧ p.testBit i = false ∧ w.getLsbD p ≠ w.getLsbD (p + 2 ^ i) := by
  simp only [wordDepends, bne_iff_ne, ne_eq]
  constructor
  · intro hne
    by_contra hc
    push Not at hc
    apply hne
    apply BitVec.eq_of_getLsbD_eq
    intro p hp
    rw [BitVec.getLsbD_and, BitVec.getLsbD_and, BitVec.getLsbD_ushiftRight, nproj_bit i hi p hp]
    cases hb : p.testBit i
    · rw [hc p hp hb, Nat.add_comm]
    · simp
  · rintro ⟨p, hp, hb, hne⟩ heq
    apply hne
    have e := congrArg (fun v : Block => v.getLsbD p) heq
    simp only [BitVec.getLsbD_and, BitVec.getLsbD_ushiftRight, nproj_bit i hi p hp, hb, Bool.not_false, Bool.and_true] at e
    rw [← e, Nat.add_comm]

/-- Dependence, looked for among the indices where the variable is 0. -/
theorem Table.dep_iff_clear (t : Table) (i : Nat) :
    t.Dep i ↔ ∃ k, k < LEN t.n ∧ k.testBit i = false ∧ t.bit k ≠ t.bit (k + 2 ^ i) := by
  constructor
  · rintro ⟨k, hk, hne⟩
    cases hb : k.testBit i
    · exact ⟨k, hk, hb, by rwa [idxFlip_of_clear hb] at hne⟩
    · have hle : 2 ^ i ≤ k := Nat.ge_two_pow_of_testBit hb
      refine ⟨k - 2 ^ i, Nat.lt_of_le_of_lt (Nat.sub_le _ _) hk, ?_, ?_⟩
      · rw [← idxFlip_of_set hb, testBit_idxFlip]; simp [hb]
      · rw [idxFlip_of_set hb] at hne
        rw [Nat.sub_add_cancel hle]; exact hne.symm
  · rintro ⟨k, hk, hb, hne⟩
    exact ⟨k, hk, by rwa [idxFlip_of_clear hb]⟩

/-- R133 computes R132. -/
theorem Table.hasVar_iff {t : Table} (h : t.wf = true) {i : Nat} (hi : i < t.n) : t.hasVar i = true ↔ t.Dep i := by
  rw [Table.dep_iff_clear t i]
  unfold Table.hasVar
  split
  · next h6 =>
    simp only [List.any_eq_true, List.mem_range, wordDepends_iff h6]
    constructor
    · rintro ⟨b, hb, p, hp, hc, hne⟩
      have hs := clear_add_lt i h6 p hp hc
      refine ⟨64 * b + p, ?_, ?_, ?_⟩
      · by_contra hge
        have e1 := Table.bit_of_ge h (k := 64 * b + p) (by omega)
        have e2 := Table.bit_of_ge h (k := 64 * b + (p + 2 ^ i)) (by have := Nat.two_pow_pos i; omega)
        rw [Table.bit_block t b _ hp] at e1
        rw [Table.bit_block t b _ hs] at e2
        exact hne (e1.trans e2.symm)
      · have e := testBit_mod64 (64 * b + p) i
        rw [show (64 * b + p) % 64 = p by omega] at e
        simpa [h6, hc] using e.symm
      · rw [Nat.add_assoc, Table.bit_block t b _ hp, Table.bit_block t b _ hs]; exact hne
    · rintro ⟨k, hk, hc, hne⟩
      have hm : k % 64 < 64 := Nat.mod_lt _ (by norm_num)
      have hcm : (k % 64).testBit i = false := by rw [testBit_mod64]; simp [hc]
      have hs := clear_add_lt i h6 _ hm hcm
      refine ⟨k / 64, div_lt_NB hk, k % 64, hm, hcm, ?_⟩
      rw [← Table.bit_block t _ _ hm, ← Table.bit_block t _ _ hs]
      rw [show 64 * (k / 64) + k % 64 = k by omega, show 64 * (k / 64) + (k % 64 + 2 ^ i) = k + 2 ^ i by omega]
      exact hne
  · next h6 =>
    have hpow : 2 ^ i = 64 * stride i := by
      obtain ⟨m, rfl⟩ := Nat.exists_eq_add_of_le (show 6 ≤ i by omega)
      simp [stride, Nat.pow_add]
    simp only [List.any_eq_true, List.mem_range, Bool.and_eq_true, Bool.not_eq_true', bne_iff_ne, ne_eq]
    constructor
    · rintro ⟨b, hb, hv, hne⟩
      have : ∃ p, p < 64 ∧ (t.block b).getLsbD p ≠ (t.block (b + stride i)).getLsbD p := by
        by_contra hc
        push Not at hc
        exact hne (BitVec.eq_of_getLsbD_eq hc)
      obtain ⟨p, hp, hd⟩ := this
      refine ⟨64 * b + p, ?_, ?_, ?_⟩
      · have := LEN_eq (n := t.n) (by omega); omega
      · rw [← blockVar_div (show 6 ≤ i by omega), show (64 * b + p) / 64 = b by omega]; exact hv
      · rw [hpow, show 64 * b + p + 64 * stride i = 64 * (b + stride i) + p by ring, Table.bit_block t _ _ hp,
          Table.bit_block t _ _ hp]
        exact hd
    · rintro ⟨k, hk, hc, hne⟩
      have hm : k % 64 < 64 := Nat.mod_lt _ (by norm_num)
      refine ⟨k / 64, div_lt_NB hk, by rw [blockVar_div (by omega)]; exact hc, fun heq => hne ?_⟩
      rw [show k = 64 * (k / 64) + k % 64 by omega, Table.bit_block t _ _ hm, heq, hpow,
        show 64 * (k / 64) + k % 64 + 64 * stride i = 64 * (k / 64 + stride i) + k % 64 by ring, Table.bit_block t _ _ hm]

end Sys2Proof.Machine
end

