-- ==== Sys2Proof/Laws/Encoding.lean ====
section
/-! SUPPORT. Packing and reading the fields of a command word. -/

namespace Sys2Proof

/-- Bit `p` of a format V word, field by field. -/
theorem packV_bit (op : BitVec 8) (d s : SlotNo) (a b : SmallOp) (p : Nat) :
    (packV op d s a b).getLsbD p =
      if p < 8 then b.getLsbD p
      else if p < 16 then a.getLsbD (p - 8)
      else if p < 20 then s.getLsbD (p - 16)
      else if p < 24 then d.getLsbD (p - 20)
      else op.getLsbD (p - 24) := by
  simp only [packV, BitVec.getLsbD_append]
  by_cases h1 : p < 8
  · simp [h1]
  · by_cases h2 : p < 16
    · simp [h1, h2, show p - 8 < 8 by omega]
    · by_cases h3 : p < 20
      · simp [h1, h2, h3, show ¬ p - 8 < 8 by omega, show p - 16 < 4 by omega, show p - 8 - 8 = p - 16 by omega]
      · by_cases h4 : p < 24
        · simp only [h1, h2, h3, h4, show ¬ p - 8 < 8 by omega, show ¬ p - 8 - 8 < 4 by omega,
            show p - 8 - 8 - 4 < 4 by omega, if_true, if_false]
          congr 1
        · simp only [h1, h2, h3, h4, show ¬ p - 8 < 8 by omega, show ¬ p - 8 - 8 < 4 by omega,
            show ¬ p - 8 - 8 - 4 < 4 by omega, if_false]
          congr 1

/-- A format X word is the format V word of the two halves of its index: `idx = {a, b}` (R82). -/
theorem packX_eq (op : BitVec 8) (d s : SlotNo) (idx : BlockIdx) :
    packX op d s idx = packV op d s (idx.extractLsb' 8 8) (idx.extractLsb' 0 8) := by
  apply BitVec.eq_of_getLsbD_eq
  intro p hp
  rw [packV_bit]
  simp only [packX, BitVec.getLsbD_append, BitVec.getLsbD_extractLsb']
  by_cases h1 : p < 8
  · simp [h1, show p < 16 by omega]
  · by_cases h2 : p < 16
    · simp only [h1, h2, if_true, if_false, show p - 8 < 8 by omega, decide_true, Bool.true_and]
      congr 1; omega
    · by_cases h3 : p < 20
      · simp only [h1, h2, h3, show p - 16 < 4 by omega, if_true, if_false]
      · by_cases h4 : p < 24
        · simp only [h1, h2, h3, h4, show ¬ p - 16 < 4 by omega, show p - 16 - 4 < 4 by omega, if_true, if_false]
          congr 1
        · simp only [h1, h2, h3, h4, show ¬ p - 16 < 4 by omega, show ¬ p - 16 - 4 < 4 by omega, if_false]
          congr 1

@[simp] theorem opField_packV (op : BitVec 8) (d s : SlotNo) (a b : SmallOp) : opField (packV op d s a b) = op := by
  apply BitVec.eq_of_getLsbD_eq
  intro p hp
  rw [opField, BitVec.getLsbD_extractLsb', packV_bit, if_neg (by omega), if_neg (by omega), if_neg (by omega),
    if_neg (by omega), decide_eq_true hp, Bool.true_and]
  congr 1; omega

@[simp] theorem dField_packV (op : BitVec 8) (d s : SlotNo) (a b : SmallOp) : dField (packV op d s a b) = d := by
  apply BitVec.eq_of_getLsbD_eq
  intro p hp
  rw [dField, BitVec.getLsbD_extractLsb', packV_bit, if_neg (by omega), if_neg (by omega), if_neg (by omega),
    if_pos (by omega), decide_eq_true hp, Bool.true_and]
  congr 1; omega

@[simp] theorem sField_packV (op : BitVec 8) (d s : SlotNo) (a b : SmallOp) : sField (packV op d s a b) = s := by
  apply BitVec.eq_of_getLsbD_eq
  intro p hp
  rw [sField, BitVec.getLsbD_extractLsb', packV_bit, if_neg (by omega), if_neg (by omega), if_pos (by omega),
    decide_eq_true hp, Bool.true_and]
  congr 1; omega

@[simp] theorem aField_packV (op : BitVec 8) (d s : SlotNo) (a b : SmallOp) : aField (packV op d s a b) = a := by
  apply BitVec.eq_of_getLsbD_eq
  intro p hp
  rw [aField, BitVec.getLsbD_extractLsb', packV_bit, if_neg (by omega), if_pos (by omega), decide_eq_true hp, Bool.true_and]
  congr 1; omega

@[simp] theorem bField_packV (op : BitVec 8) (d s : SlotNo) (a b : SmallOp) : bField (packV op d s a b) = b := by
  apply BitVec.eq_of_getLsbD_eq
  intro p hp
  rw [bField, BitVec.getLsbD_extractLsb', packV_bit, if_pos (by omega), decide_eq_true hp, Bool.true_and]
  congr 1; omega

@[simp] theorem idxField_packX (op : BitVec 8) (d s : SlotNo) (idx : BlockIdx) : idxField (packX op d s idx) = idx := by
  apply BitVec.eq_of_getLsbD_eq
  intro p hp
  rw [idxField, BitVec.getLsbD_extractLsb', packX, BitVec.getLsbD_append]
  simp [hp]

@[simp] theorem opField_packX (op : BitVec 8) (d s : SlotNo) (idx : BlockIdx) : opField (packX op d s idx) = op := by
  rw [packX_eq, opField_packV]

@[simp] theorem dField_packX (op : BitVec 8) (d s : SlotNo) (idx : BlockIdx) : dField (packX op d s idx) = d := by
  rw [packX_eq, dField_packV]

@[simp] theorem sField_packX (op : BitVec 8) (d s : SlotNo) (idx : BlockIdx) : sField (packX op d s idx) = s := by
  rw [packX_eq, sField_packV]

/-- Words are masked field by field. -/
theorem packV_and (op op' : BitVec 8) (d d' s s' : SlotNo) (a a' b b' : SmallOp) :
    packV op d s a b &&& packV op' d' s' a' b' = packV (op &&& op') (d &&& d') (s &&& s') (a &&& a') (b &&& b') := by
  apply BitVec.eq_of_getLsbD_eq
  intro p hp
  rw [BitVec.getLsbD_and, packV_bit, packV_bit, packV_bit]
  split_ifs <;> rw [BitVec.getLsbD_and]

/-- A word is its five format V fields. -/
theorem packV_fields (cw : CmdWord) : packV (opField cw) (dField cw) (sField cw) (aField cw) (bField cw) = cw := by
  apply BitVec.eq_of_getLsbD_eq
  intro p hp
  rw [packV_bit]
  simp only [opField, dField, sField, aField, bField, BitVec.getLsbD_extractLsb']
  split_ifs with h1 h2 h3 h4
  · simp [h1]
  · rw [decide_eq_true (by omega), Bool.true_and]; congr 1; omega
  · rw [decide_eq_true (by omega), Bool.true_and]; congr 1; omega
  · rw [decide_eq_true (by omega), Bool.true_and]; congr 1; omega
  · rw [decide_eq_true (by omega), Bool.true_and]; congr 1; omega

/-- The row of a command. -/
def rowOf : Instr → Opcode
  | .create _ _ => .create
  | .destroy _ => .destroy
  | .copy _ _ => .copy
  | .rdblk _ _ => .rdblk
  | .wrblk _ _ => .wrblk
  | .rdstat => .rdstat
  | .rdnv _ => .rdnv
  | .supclr => .supclr
  | .suppush _ => .suppush
  | .rdsup _ => .rdsup
  | .hasvar _ _ => .hasvar
  | .cof0i _ _ => .cof0i
  | .cof1i _ _ => .cof1i
  | .swapadji _ _ => .swapadji
  | .swapi _ _ _ => .swapi
  | .flipi _ _ => .flipi
  | .minbasei _ => .minbasei
  | .expandi _ => .expandi
  | .extfill _ _ => .extfill
  | .nexti _ => .nexti
  | .shli _ => .shli

end Sys2Proof
end

