-- ==== Sys2Proof/Laws/Extend.lean ====
section
/-! SUPPORT. The resize/broadcast engine's word algorithms compute `EXT`. -/

namespace Sys2Proof.Machine

/-- `c` doubling steps from arity `m` cover `m + c` variables. -/
theorem doubling_bit {m : Nat} {w : Block} (hw : ∀ p, 2 ^ m ≤ p → w.getLsbD p = false) (c : Nat) (hc : m + c ≤ 6)
    (p : Nat) (hp : p < 64) :
    ((List.range' m c).foldl (fun (x : Block) v => x ||| (x <<< 2 ^ v)) w).getLsbD p
      = (decide (p < 2 ^ (m + c)) && w.getLsbD (p % 2 ^ m)) := by
  induction c generalizing p with
  | zero =>
    by_cases hlt : p < 2 ^ m
    · simp [hlt, Nat.mod_eq_of_lt hlt]
    · simp [hlt, hw p (by omega)]
  | succ c ih =>
    have ih' := ih (by omega)
    have h2 : (2 : Nat) ^ (m + (c + 1)) = 2 ^ (m + c) + 2 ^ (m + c) := by rw [← Nat.add_assoc, Nat.pow_succ]; omega
    have hdvd : (2 : Nat) ^ m ∣ 2 ^ (m + c) := Nat.pow_dvd_pow 2 (Nat.le_add_right m c)
    rw [List.range'_concat, List.foldl_concat, Nat.one_mul, h2]
    generalize List.foldl (fun (x : Block) v => x ||| (x <<< 2 ^ v)) w (List.range' m c) = x at ih'
    rw [BitVec.getLsbD_or, BitVec.getLsbD_shiftLeft, ih' p hp, decide_eq_true hp, Bool.true_and]
    by_cases h1 : p < 2 ^ (m + c)
    · simp [h1, Nat.lt_add_right _ h1]
    · have hs : p - 2 ^ (m + c) < 64 := Nat.lt_of_le_of_lt (Nat.sub_le _ _) hp
      have hmod : (p - 2 ^ (m + c)) % 2 ^ m = p % 2 ^ m := by
        obtain ⟨q, hq⟩ := hdvd
        rw [hq]
        exact Nat.sub_mul_mod (by rw [← hq]; omega)
      rw [ih' _ hs, hmod, decide_eq_false h1, Bool.false_and, Bool.false_or, Bool.not_false, Bool.true_and]
      congr 1
      exact decide_eq_decide.mpr ⟨fun h => by omega, fun h => by omega⟩

theorem doubled_bit {m tn : Nat} (hm : m < 6) (htn : m ≤ tn) {w : Block} (hw : ∀ p, 2 ^ m ≤ p → w.getLsbD p = false)
    (p : Nat) (hp : p < 64) :
    (doubled m tn w).getLsbD p = (decide (p < 2 ^ min 6 tn) && w.getLsbD (p % 2 ^ m)) := by
  have h := doubling_bit hw (min 6 tn - m) (by omega) p hp
  rw [show m + (min 6 tn - m) = min 6 tn by omega] at h
  exact h

/-- R198 and R199 compute R197. -/
theorem Table.extend_isExt {t : Table} (h : t.wf = true) {tn : Nat} (htn : t.n ≤ tn) : t.IsExt tn (t.extend tn) := by
  unfold Table.IsExt Table.extend
  split
  · next hm =>
    have hst : ∀ p, 2 ^ t.n ≤ p → (t.block 0).getLsbD p = false := fun p hle => by
      by_cases hp : p < 64
      · exact Table.stray_of_wf h hp hle
      · exact BitVec.getLsbD_of_ge _ _ (by omega)
    have hblk : ∀ b, b < NB tn →
        (Table.mk tn (List.replicate (NB tn) (doubled t.n tn (t.block 0)))).block b = doubled t.n tn (t.block 0) := by
      intro b hb
      simp [Table.block, hb]
    refine ⟨rfl, ?_, fun k hk => ?_⟩
    · rw [Table.wf_iff]
      refine ⟨by simp, fun p hp hle => ?_⟩
      rw [hblk 0 (NB_pos _), doubled_bit hm htn hst p hp]
      have hn : tn < 6 := by
        by_contra hc
        have := LEN_ge (show 6 ≤ tn by omega)
        have : LEN tn ≤ p := hle
        omega
      rw [Nat.min_eq_right (by omega), decide_eq_false (show ¬ p < 2 ^ tn from Nat.not_lt.mpr hle), Bool.false_and]
    · have hm64 : k % 64 < 64 := Nat.mod_lt _ (by norm_num)
      have hlen : LEN t.n ≤ 64 := LEN_le (by omega)
      have hpos : 0 < LEN t.n := Nat.two_pow_pos _
      have hmod : k % LEN t.n < LEN t.n := Nat.mod_lt _ hpos
      show _ = t.bit (k % LEN t.n)
      unfold Table.bit
      rw [hblk _ (div_lt_NB hk), doubled_bit hm htn hst _ hm64]
      have e0 : k % LEN t.n / 64 = 0 := by omega
      have e1 : k % LEN t.n % 64 = k % LEN t.n := Nat.mod_eq_of_lt (by omega)
      have e2 : k % 64 % 2 ^ t.n = k % LEN t.n :=
        Nat.mod_mod_of_dvd k (show LEN t.n ∣ 64 from Nat.pow_dvd_pow 2 (show t.n ≤ 6 by omega))
      have e3 : k % 64 < 2 ^ min 6 tn := by
        by_cases h6 : 6 ≤ tn
        · rw [Nat.min_eq_left h6]; exact hm64
        · rw [Nat.min_eq_right (by omega)]
          exact Nat.lt_of_le_of_lt (Nat.mod_le _ _) hk
      rw [e0, e1, e2, decide_eq_true e3, Bool.true_and]
  · next hm =>
    have hlen := LEN_eq (n := t.n) (by omega)
    have hblk : ∀ b, b < NB tn →
        (Table.mk tn ((List.range (NB tn)).map (fun b => t.block (b % NB t.n)))).block b = t.block (b % NB t.n) := by
      intro b hb
      simp only [Table.block, List.getD_eq_getElem?_getD, List.getElem?_map, List.getElem?_range hb]
      rfl
    refine ⟨rfl, Table.wf_of_six_le (show 6 ≤ tn by omega) (by simp), fun k hk => ?_⟩
    show _ = t.bit (k % LEN t.n)
    unfold Table.bit
    rw [hblk _ (div_lt_NB hk), hlen, Nat.mod_mul_right_div_self, Nat.mod_mul_right_mod]

end Sys2Proof.Machine
end

