-- ==== Sys2Proof/Laws/State.lean ====
section
/-! SUPPORT. One lemma per field per update of the state, each true by rfl, so that no later proof unfolds a record update. -/

namespace Sys2Proof.Machine

/-! ### answer -/

@[simp] theorem answer_cfg (v : Block) (s : State) : (answer v s).cfg = s.cfg := rfl
@[simp] theorem answer_slots (v : Block) (s : State) : (answer v s).slots = s.slots := rfl
@[simp] theorem answer_r (v : Block) (s : State) : (answer v s).r = s.r := rfl
@[simp] theorem answer_f (v : Block) (s : State) : (answer v s).f = s.f := rfl
@[simp] theorem answer_cause (v : Block) (s : State) : (answer v s).cause = s.cause := rfl
@[simp] theorem answer_fcw (v : Block) (s : State) : (answer v s).fcw = s.fcw := rfl
@[simp] theorem answer_sup (v : Block) (s : State) : (answer v s).sup = s.sup := rfl
@[simp] theorem answer_cmd (v : Block) (s : State) : (answer v s).cmd = s.cmd := rfl
@[simp] theorem answer_rdata (v : Block) (s : State) : (answer v s).rdata = v := rfl
@[simp] theorem answer_pending (v : Block) (s : State) : (answer v s).pending = s.pending := rfl
@[simp] theorem answer_outputs (v : Block) (s : State) : (answer v s).outputs = s.outputs := rfl

/-! ### ignore -/

@[simp] theorem ignore_cfg (s : State) : (ignore s).cfg = s.cfg := rfl
@[simp] theorem ignore_slots (s : State) : (ignore s).slots = s.slots := rfl
@[simp] theorem ignore_r (s : State) : (ignore s).r = s.r := rfl
@[simp] theorem ignore_f (s : State) : (ignore s).f = s.f := rfl
@[simp] theorem ignore_cause (s : State) : (ignore s).cause = s.cause := rfl
@[simp] theorem ignore_fcw (s : State) : (ignore s).fcw = s.fcw := rfl
@[simp] theorem ignore_sup (s : State) : (ignore s).sup = s.sup := rfl
@[simp] theorem ignore_cmd (s : State) : (ignore s).cmd = s.cmd := rfl
@[simp] theorem ignore_rdata (s : State) : (ignore s).rdata = 0 := rfl
@[simp] theorem ignore_pending (s : State) : (ignore s).pending = s.pending := rfl
@[simp] theorem ignore_outputs (s : State) : (ignore s).outputs = s.outputs := rfl

/-! ### raise -/

@[simp] theorem raise_cfg (c : Cause) (s : State) : (raise c s).cfg = s.cfg := rfl
@[simp] theorem raise_slots (c : Cause) (s : State) : (raise c s).slots = s.slots := rfl
@[simp] theorem raise_r (c : Cause) (s : State) : (raise c s).r = s.r := rfl
@[simp] theorem raise_f (c : Cause) (s : State) : (raise c s).f = true := rfl
@[simp] theorem raise_cause (c : Cause) (s : State) : (raise c s).cause = c := rfl
@[simp] theorem raise_fcw (c : Cause) (s : State) : (raise c s).fcw = s.cmd.cw := rfl
@[simp] theorem raise_sup (c : Cause) (s : State) : (raise c s).sup = s.sup := rfl
@[simp] theorem raise_cmd (c : Cause) (s : State) : (raise c s).cmd = s.cmd := rfl
@[simp] theorem raise_rdata (c : Cause) (s : State) : (raise c s).rdata = 0 := rfl
@[simp] theorem raise_pending (c : Cause) (s : State) : (raise c s).pending = s.pending := rfl
@[simp] theorem raise_outputs (c : Cause) (s : State) : (raise c s).outputs = s.outputs := rfl

/-! ### setSlot -/

@[simp] theorem setSlot_cfg (s : State) (d : SlotNo) (v : Slot) : (s.setSlot d v).cfg = s.cfg := rfl
@[simp] theorem setSlot_slots (s : State) (d : SlotNo) (v : Slot) : (s.setSlot d v).slots = s.slots.set d.toNat v := rfl
@[simp] theorem setSlot_r (s : State) (d : SlotNo) (v : Slot) : (s.setSlot d v).r = s.r := rfl
@[simp] theorem setSlot_f (s : State) (d : SlotNo) (v : Slot) : (s.setSlot d v).f = s.f := rfl
@[simp] theorem setSlot_cause (s : State) (d : SlotNo) (v : Slot) : (s.setSlot d v).cause = s.cause := rfl
@[simp] theorem setSlot_fcw (s : State) (d : SlotNo) (v : Slot) : (s.setSlot d v).fcw = s.fcw := rfl
@[simp] theorem setSlot_sup (s : State) (d : SlotNo) (v : Slot) : (s.setSlot d v).sup = s.sup := rfl
@[simp] theorem setSlot_cmd (s : State) (d : SlotNo) (v : Slot) : (s.setSlot d v).cmd = s.cmd := rfl
@[simp] theorem setSlot_rdata (s : State) (d : SlotNo) (v : Slot) : (s.setSlot d v).rdata = s.rdata := rfl
@[simp] theorem setSlot_pending (s : State) (d : SlotNo) (v : Slot) : (s.setSlot d v).pending = s.pending := rfl
@[simp] theorem setSlot_outputs (s : State) (d : SlotNo) (v : Slot) : (s.setSlot d v).outputs = s.outputs := rfl

/-! ### setTable -/

@[simp] theorem setTable_cfg (s : State) (d : SlotNo) (t : Table) : (s.setTable d t).cfg = s.cfg := rfl
@[simp] theorem setTable_slots (s : State) (d : SlotNo) (t : Table) : (s.setTable d t).slots = s.slots.set d.toNat (.live t) := rfl
@[simp] theorem setTable_r (s : State) (d : SlotNo) (t : Table) : (s.setTable d t).r = s.r := rfl
@[simp] theorem setTable_f (s : State) (d : SlotNo) (t : Table) : (s.setTable d t).f = s.f := rfl
@[simp] theorem setTable_cause (s : State) (d : SlotNo) (t : Table) : (s.setTable d t).cause = s.cause := rfl
@[simp] theorem setTable_fcw (s : State) (d : SlotNo) (t : Table) : (s.setTable d t).fcw = s.fcw := rfl
@[simp] theorem setTable_sup (s : State) (d : SlotNo) (t : Table) : (s.setTable d t).sup = s.sup := rfl
@[simp] theorem setTable_cmd (s : State) (d : SlotNo) (t : Table) : (s.setTable d t).cmd = s.cmd := rfl
@[simp] theorem setTable_rdata (s : State) (d : SlotNo) (t : Table) : (s.setTable d t).rdata = s.rdata := rfl
@[simp] theorem setTable_pending (s : State) (d : SlotNo) (t : Table) : (s.setTable d t).pending = s.pending := rfl
@[simp] theorem setTable_outputs (s : State) (d : SlotNo) (t : Table) : (s.setTable d t).outputs = s.outputs := rfl

/-! ### setR -/

@[simp] theorem setR_cfg (s : State) (v : Bool) : (s.setR v).cfg = s.cfg := rfl
@[simp] theorem setR_slots (s : State) (v : Bool) : (s.setR v).slots = s.slots := rfl
@[simp] theorem setR_r (s : State) (v : Bool) : (s.setR v).r = v := rfl
@[simp] theorem setR_f (s : State) (v : Bool) : (s.setR v).f = s.f := rfl
@[simp] theorem setR_cause (s : State) (v : Bool) : (s.setR v).cause = s.cause := rfl
@[simp] theorem setR_fcw (s : State) (v : Bool) : (s.setR v).fcw = s.fcw := rfl
@[simp] theorem setR_sup (s : State) (v : Bool) : (s.setR v).sup = s.sup := rfl
@[simp] theorem setR_cmd (s : State) (v : Bool) : (s.setR v).cmd = s.cmd := rfl
@[simp] theorem setR_rdata (s : State) (v : Bool) : (s.setR v).rdata = s.rdata := rfl
@[simp] theorem setR_pending (s : State) (v : Bool) : (s.setR v).pending = s.pending := rfl
@[simp] theorem setR_outputs (s : State) (v : Bool) : (s.setR v).outputs = s.outputs := rfl

/-! ### setSup -/

@[simp] theorem setSup_cfg (s : State) (l : List SupEntry) : (s.setSup l).cfg = s.cfg := rfl
@[simp] theorem setSup_slots (s : State) (l : List SupEntry) : (s.setSup l).slots = s.slots := rfl
@[simp] theorem setSup_r (s : State) (l : List SupEntry) : (s.setSup l).r = s.r := rfl
@[simp] theorem setSup_f (s : State) (l : List SupEntry) : (s.setSup l).f = s.f := rfl
@[simp] theorem setSup_cause (s : State) (l : List SupEntry) : (s.setSup l).cause = s.cause := rfl
@[simp] theorem setSup_fcw (s : State) (l : List SupEntry) : (s.setSup l).fcw = s.fcw := rfl
@[simp] theorem setSup_sup (s : State) (l : List SupEntry) : (s.setSup l).sup = l := rfl
@[simp] theorem setSup_cmd (s : State) (l : List SupEntry) : (s.setSup l).cmd = s.cmd := rfl
@[simp] theorem setSup_rdata (s : State) (l : List SupEntry) : (s.setSup l).rdata = s.rdata := rfl
@[simp] theorem setSup_pending (s : State) (l : List SupEntry) : (s.setSup l).pending = s.pending := rfl
@[simp] theorem setSup_outputs (s : State) (l : List SupEntry) : (s.setSup l).outputs = s.outputs := rfl

/-! ### present -/

@[simp] theorem present_cfg (c : Command) (rest : List Event) (s : State) : (present c rest s).cfg = s.cfg := rfl
@[simp] theorem present_slots (c : Command) (rest : List Event) (s : State) : (present c rest s).slots = s.slots := rfl
@[simp] theorem present_r (c : Command) (rest : List Event) (s : State) : (present c rest s).r = s.r := rfl
@[simp] theorem present_f (c : Command) (rest : List Event) (s : State) : (present c rest s).f = s.f := rfl
@[simp] theorem present_cause (c : Command) (rest : List Event) (s : State) : (present c rest s).cause = s.cause := rfl
@[simp] theorem present_fcw (c : Command) (rest : List Event) (s : State) : (present c rest s).fcw = s.fcw := rfl
@[simp] theorem present_sup (c : Command) (rest : List Event) (s : State) : (present c rest s).sup = s.sup := rfl
@[simp] theorem present_cmd (c : Command) (rest : List Event) (s : State) : (present c rest s).cmd = c := rfl
@[simp] theorem present_rdata (c : Command) (rest : List Event) (s : State) : (present c rest s).rdata = s.rdata := rfl
@[simp] theorem present_pending (c : Command) (rest : List Event) (s : State) : (present c rest s).pending = rest := rfl
@[simp] theorem present_outputs (c : Command) (rest : List Event) (s : State) : (present c rest s).outputs = s.outputs := rfl

/-! ### recordAnswer -/

@[simp] theorem recordAnswer_cfg (s : State) : (recordAnswer s).cfg = s.cfg := rfl
@[simp] theorem recordAnswer_slots (s : State) : (recordAnswer s).slots = s.slots := rfl
@[simp] theorem recordAnswer_r (s : State) : (recordAnswer s).r = s.r := rfl
@[simp] theorem recordAnswer_f (s : State) : (recordAnswer s).f = s.f := rfl
@[simp] theorem recordAnswer_cause (s : State) : (recordAnswer s).cause = s.cause := rfl
@[simp] theorem recordAnswer_fcw (s : State) : (recordAnswer s).fcw = s.fcw := rfl
@[simp] theorem recordAnswer_sup (s : State) : (recordAnswer s).sup = s.sup := rfl
@[simp] theorem recordAnswer_cmd (s : State) : (recordAnswer s).cmd = s.cmd := rfl
@[simp] theorem recordAnswer_rdata (s : State) : (recordAnswer s).rdata = s.rdata := rfl
@[simp] theorem recordAnswer_pending (s : State) : (recordAnswer s).pending = s.pending := rfl
@[simp] theorem recordAnswer_outputs (s : State) : (recordAnswer s).outputs = s.outputs ++ [s.rdata] := rfl

/-! ### applyReset -/

@[simp] theorem applyReset_cfg (s : State) : (applyReset s).cfg = s.cfg := rfl
@[simp] theorem applyReset_slots (s : State) : (applyReset s).slots = List.replicate s.cfg.nt .empty := rfl
@[simp] theorem applyReset_r (s : State) : (applyReset s).r = false := rfl
@[simp] theorem applyReset_f (s : State) : (applyReset s).f = false := rfl
@[simp] theorem applyReset_cause (s : State) : (applyReset s).cause = .none := rfl
@[simp] theorem applyReset_fcw (s : State) : (applyReset s).fcw = 0 := rfl
@[simp] theorem applyReset_sup (s : State) : (applyReset s).sup = [] := rfl
@[simp] theorem applyReset_cmd (s : State) : (applyReset s).cmd = Command.mk 0 0 := rfl
@[simp] theorem applyReset_rdata (s : State) : (applyReset s).rdata = 0 := rfl
@[simp] theorem applyReset_pending (s : State) : (applyReset s).pending = s.pending := rfl
@[simp] theorem applyReset_outputs (s : State) : (applyReset s).outputs = s.outputs := rfl

/-! ### withFetchWord -/

@[simp] theorem withFetchWord_cfg (s : State) (nbits w : Nat) : (s.withFetchWord nbits w).cfg = s.cfg := rfl
@[simp] theorem withFetchWord_slots (s : State) (nbits w : Nat) : (s.withFetchWord nbits w).slots = s.slots := rfl
@[simp] theorem withFetchWord_r (s : State) (nbits w : Nat) : (s.withFetchWord nbits w).r = s.r := rfl
@[simp] theorem withFetchWord_f (s : State) (nbits w : Nat) : (s.withFetchWord nbits w).f = s.f := rfl
@[simp] theorem withFetchWord_cause (s : State) (nbits w : Nat) : (s.withFetchWord nbits w).cause = s.cause := rfl
@[simp] theorem withFetchWord_fcw (s : State) (nbits w : Nat) : (s.withFetchWord nbits w).fcw = s.fcw := rfl
@[simp] theorem withFetchWord_sup (s : State) (nbits w : Nat) : (s.withFetchWord nbits w).sup = s.sup := rfl
@[simp] theorem withFetchWord_cmd (s : State) (nbits w : Nat) : (s.withFetchWord nbits w).cmd = s.cmd := rfl
@[simp] theorem withFetchWord_rdata (s : State) (nbits w : Nat) : (s.withFetchWord nbits w).rdata = s.rdata := rfl
@[simp] theorem withFetchWord_outputs (s : State) (nbits w : Nat) : (s.withFetchWord nbits w).outputs = s.outputs := rfl

end Sys2Proof.Machine
end

