-- ==== Sys2Proof/Laws/Ops.lean ====
section
/-! SUPPORT. What each shared operation can do, said once: reading a slot after a write, the common checks, the block store's
canonical form and that every operation over it keeps it. -/

namespace Sys2Proof.Machine

/-! ### Slots after updates -/

@[simp] theorem answer_slot (v : Block) (s : State) (e : SlotNo) : (answer v s).slot e = s.slot e := rfl

@[simp] theorem ignore_slot (s : State) (e : SlotNo) : (ignore s).slot e = s.slot e := rfl

@[simp] theorem raise_slot (c : Cause) (s : State) (e : SlotNo) : (raise c s).slot e = s.slot e := rfl

@[simp] theorem setR_slot (s : State) (v : Bool) (e : SlotNo) : (s.setR v).slot e = s.slot e := rfl

@[simp] theorem setSup_slot (s : State) (l : List SupEntry) (e : SlotNo) : (s.setSup l).slot e = s.slot e := rfl

@[simp] theorem answer_memRead (v : Block) (s : State) (e : SlotNo) (b : Nat) : (answer v s).memRead e b = s.memRead e b := rfl

@[simp] theorem ignore_memRead (s : State) (e : SlotNo) (b : Nat) : (ignore s).memRead e b = s.memRead e b := rfl

@[simp] theorem raise_memRead (c : Cause) (s : State) (e : SlotNo) (b : Nat) : (raise c s).memRead e b = s.memRead e b := rfl

@[simp] theorem setR_memRead (s : State) (v : Bool) (e : SlotNo) (b : Nat) : (s.setR v).memRead e b = s.memRead e b := rfl

@[simp] theorem setSup_memRead (s : State) (l : List SupEntry) (e : SlotNo) (b : Nat) :
    (s.setSup l).memRead e b = s.memRead e b := rfl

/-- A write to one slot leaves every other slot alone (R34). -/
theorem slot_setSlot_other (s : State) {d e : SlotNo} (h : e ≠ d) (v : Slot) : (s.setSlot d v).slot e = s.slot e := by
  have hne : d.toNat ≠ e.toNat := fun hc => h (BitVec.eq_of_toNat_eq hc.symm)
  simp [State.slot, State.setSlot, List.getElem?_set_ne hne]

/-- A slot that exists reads what was written to it. -/
theorem slot_setSlot_same {s : State} {d : SlotNo} (h : d.toNat < s.slots.length) (v : Slot) :
    (s.setSlot d v).slot d = v := by
  simp [State.slot, State.setSlot, h]

theorem slot_setTable_other (s : State) {d e : SlotNo} (h : e ≠ d) (t : Table) : (s.setTable d t).slot e = s.slot e :=
  slot_setSlot_other s h _

theorem slot_setTable_same {s : State} {d : SlotNo} (h : d.toNat < s.slots.length) (t : Table) :
    (s.setTable d t).slot d = .live t :=
  slot_setSlot_same h _

/-- A live slot is one of the state's slots. -/
theorem lt_length_of_live {s : State} {d : SlotNo} {t : Table} (h : s.slot d = .live t) : d.toNat < s.slots.length := by
  by_contra hc
  rw [State.slot, List.getD_eq_default _ _ (by omega)] at h
  exact Slot.noConfusion h

theorem memRead_of_slot {s t : State} {e : SlotNo} (h : t.slot e = s.slot e) (b : Nat) : t.memRead e b = s.memRead e b := by
  unfold State.memRead; rw [h]

theorem memRead_live {s : State} {d : SlotNo} {t : Table} (h : s.slot d = .live t) {b : Nat} (hb : b < NB t.n) :
    s.memRead d b = some (t.block b) := by
  simp [State.memRead, h, hb]

theorem memWrite_live {s : State} {d : SlotNo} {t : Table} (h : s.slot d = .live t) (b : Nat) (w : Block) :
    s.memWrite d b w = s.setTable d (t.setBlock b w) := by
  simp [State.memWrite, h]

theorem memWrite_empty {s : State} {d : SlotNo} (h : s.slot d = .empty) (b : Nat) (w : Block) : s.memWrite d b w = s := by
  simp [State.memWrite, h]

/-- A write of one block leaves every block of every other slot alone. -/
theorem memRead_memWrite_other (s : State) {d e : SlotNo} (h : e ≠ d) (b c : Nat) (w : Block) :
    (s.memWrite d b w).memRead e c = s.memRead e c := by
  cases hd : s.slot d with
  | empty => rw [memWrite_empty hd]
  | live t => rw [memWrite_live hd]; exact memRead_of_slot (slot_setTable_other s h _) c

/-- Inside the written slot, the written block reads the value and every other block reads as before. -/
theorem memRead_memWrite_same {s : State} {d : SlotNo} {t : Table} (h : s.slot d = .live t) (hl : t.blk.length = NB t.n)
    {b : Nat} (hb : b < NB t.n) (w : Block) (c : Nat) :
    (s.memWrite d b w).memRead d c = if c = b then some w else s.memRead d c := by
  rw [memWrite_live h]
  unfold State.memRead
  rw [slot_setTable_same (lt_length_of_live h), h]
  by_cases hc : c = b
  · simp [hc, hb, Table.block_setBlock t (hl ▸ hb)]
  · simp [hc, Table.block_setBlock t (hl ▸ hb)]

/-! ### The checks -/

@[simp] theorem require_true (c : Cause) (s k : State) : require true c s k = k := rfl

@[simp] theorem require_false (c : Cause) (s k : State) : require false c s k = raise c s := rfl

theorem onLive_live {s : State} {d : SlotNo} {t : Table} (h : s.slot d = .live t) (k : Table → State) :
    onLive d s k = k t := by
  simp [onLive, h]

theorem onLive_empty {s : State} {d : SlotNo} (h : s.slot d = .empty) (k : Table → State) :
    onLive d s k = raise .slotEmpty s := by
  simp [onLive, h]

theorem onEmpty_empty {s : State} {d : SlotNo} (h : s.slot d = .empty) (k : State) : onEmpty d s k = k := by
  simp [onEmpty, h]

theorem onEmpty_live {s : State} {d : SlotNo} {t : Table} (h : s.slot d = .live t) (k : State) :
    onEmpty d s k = raise .slotLive s := by
  simp [onEmpty, h]

/-- With no fault recorded and every named slot existing, a command does what its own rule says. -/
theorem perform_ok {ds : List SlotNo} {s : State} (hf : s.f = false) (hd : ∀ d ∈ ds, d.toNat < s.cfg.nt) (k : State) :
    perform ds s k = .next k := by
  have : ds.all s.hasSlot = true := by
    rw [List.all_eq_true]
    intro d hm
    exact decide_eq_true (hd d hm)
  simp [perform, hf, this]

/-- Everything that performing a command can do: be ignored in the faulted state, be illegal, or follow its own rule. -/
theorem perform_cases {ds : List SlotNo} {s k t : State} (h : perform ds s k = .next t) :
    (s.f = true ∧ t = ignore s) ∨
    (s.f = false ∧ (∃ d ∈ ds, s.cfg.nt ≤ d.toNat) ∧ t = raise .illegalCmd s) ∨
    (s.f = false ∧ (∀ d ∈ ds, d.toNat < s.cfg.nt) ∧ t = k) := by
  unfold perform at h
  injection h with h
  cases hf : s.f
  · rw [hf, if_neg (by simp)] at h
    right
    split at h
    · next ha =>
      refine .inr ⟨rfl, fun d hm => ?_, h.symm⟩
      exact of_decide_eq_true (List.all_eq_true.1 ha d hm)
    · next ha =>
      refine .inl ⟨rfl, ?_, h.symm⟩
      simp only [List.all_eq_true, State.hasSlot, decide_eq_true_eq] at ha
      push Not at ha
      exact ha
  · rw [hf, if_pos rfl] at h
    exact .inl ⟨rfl, h.symm⟩

/-- Everything that a check can do. -/
theorem require_cases (ok : Bool) (c : Cause) (s k : State) :
    (ok = true ∧ require ok c s k = k) ∨ (ok = false ∧ require ok c s k = raise c s) := by
  cases ok <;> simp

/-- Everything that the check for a live slot can do. -/
theorem onLive_cases (d : SlotNo) (s : State) (k : Table → State) :
    (∃ t, s.slot d = .live t ∧ onLive d s k = k t) ∨ (s.slot d = .empty ∧ onLive d s k = raise .slotEmpty s) := by
  cases h : s.slot d with
  | empty => exact .inr ⟨rfl, onLive_empty h k⟩
  | live t => exact .inl ⟨t, rfl, onLive_live h k⟩

/-- Everything that the check for an empty slot can do. -/
theorem onEmpty_cases (d : SlotNo) (s k : State) :
    (s.slot d = .empty ∧ onEmpty d s k = k) ∨ ((∃ t, s.slot d = .live t) ∧ onEmpty d s k = raise .slotLive s) := by
  cases h : s.slot d with
  | empty => exact .inl ⟨rfl, onEmpty_empty h k⟩
  | live t => exact .inr ⟨⟨t, rfl⟩, onEmpty_live h k⟩

/-! ### The canonical form of the block store -/

theorem Memory.wf_iff (c : Config) (m : Memory) :
    Memory.wf c m = true ↔ m.length = c.nt ∧ ∀ d, d < c.nt → Slot.wf c d (m.getD d .empty) = true := by
  simp only [Memory.wf, Bool.and_eq_true, decide_eq_true_eq, List.all_eq_true, List.mem_range]

theorem Slot.wf_live (c : Config) (d : Nat) (t : Table) :
    Slot.wf c d (.live t) = true ↔ t.wf = true ∧ t.n ≤ c.nmax ∧ ∀ f, c.fixed.getD d none = some f → t.n = f := by
  simp only [Slot.wf, Bool.and_eq_true, decide_eq_true_eq, and_assoc]
  refine and_congr_right fun _ => and_congr_right fun _ => ?_
  cases c.fixed.getD d none <;> simp

/-- Every live slot of a well-formed store holds a well-formed table of an allowed arity. -/
theorem Memory.wf_slot {s : State} (h : Memory.wf s.cfg s.slots = true) {d : SlotNo} {t : Table} (hd : s.slot d = .live t) :
    t.wf = true ∧ t.n ≤ s.cfg.nmax ∧ ∀ f, s.cfg.fixedArity d = some f → t.n = f := by
  obtain ⟨hl, hw⟩ := (Memory.wf_iff _ _).1 h
  have hlt := lt_length_of_live hd
  have hs := hw d.toNat (by omega)
  unfold State.slot at hd
  rw [hd, Slot.wf_live] at hs
  exact hs

/-- A slot write keeps the canonical form when what is written has it. -/
theorem Memory.wf_setSlot {s : State} (h : Memory.wf s.cfg s.slots = true) (d : SlotNo) {v : Slot}
    (hv : Slot.wf s.cfg d.toNat v = true) : Memory.wf s.cfg (s.setSlot d v).slots = true := by
  rw [Memory.wf_iff] at h ⊢
  refine ⟨by simp [h.1], fun e he => ?_⟩
  rw [setSlot_slots, List.getD_eq_getElem?_getD, List.getElem?_set]
  by_cases hde : d.toNat = e
  · subst hde; simp [h.1, he, hv]
  · have := h.2 e he
    rw [List.getD_eq_getElem?_getD] at this
    simp [hde, this]

/-- Releasing a table keeps the canonical form. -/
theorem Memory.wf_setSlot_empty {s : State} (h : Memory.wf s.cfg s.slots = true) (d : SlotNo) :
    Memory.wf s.cfg (s.setSlot d .empty).slots = true :=
  Memory.wf_setSlot h d rfl

/-- Rewriting the table of a live slot by a well-formed table of the same arity keeps the canonical form. -/
theorem Memory.wf_setTable {s : State} (h : Memory.wf s.cfg s.slots = true) {d : SlotNo} {t u : Table}
    (hd : s.slot d = .live t) (hu : u.wf = true) (hn : u.n = t.n) : Memory.wf s.cfg (s.setTable d u).slots = true := by
  refine Memory.wf_setSlot h d ((Slot.wf_live _ _ _).2 ⟨hu, ?_⟩)
  rw [hn]
  exact (Memory.wf_slot h hd).2

/-- A masked block write keeps the canonical form (R109). -/
theorem Memory.wf_memWrite {s : State} (h : Memory.wf s.cfg s.slots = true) {d : SlotNo} {t : Table} (hd : s.slot d = .live t)
    {b : Nat} (hb : b < NB t.n) (w : Block) : Memory.wf s.cfg (s.memWrite d b (w &&& lenMask t.n)).slots = true := by
  rw [memWrite_live hd]
  exact Memory.wf_setTable h hd (Table.setBlock_masked_wf (Memory.wf_slot h hd).1 hb w) rfl

/-- The store after reset has the canonical form, whatever the parameters. -/
theorem Memory.wf_resetWith (c : Config) : Memory.wf c (State.resetWith c).slots = true := by
  rw [Memory.wf_iff]
  refine ⟨by simp [State.resetWith], fun d hd => ?_⟩
  simp [State.resetWith, hd, Slot.wf]

theorem Memory.wf_reset : Memory.wf State.reset.cfg State.reset.slots = true :=
  Memory.wf_resetWith _

end Sys2Proof.Machine
end

