-- ==== Sys2Proof/Laws/PerInstr.lean ====
section
/-! SUPPORT. Statements for all commands, one lemma per constructor. `EncodesItsRow`: the encoder's word of a command carries
its row's opcode and satisfies its row's `match` and `mask` (`spec/30_encoding.md` R84, R89), for every value of its fields. -/

namespace Sys2Proof.Laws

/-- The command's word has the opcode of its row, and its must-be-zero fields are zero. -/
def EncodesItsRow.Statement (i : Instr) : Prop :=
  opField (encode i) = (rowOf i).code ∧ encode i &&& (rowOf i).mask = (rowOf i).matchWord

/-- The masks that keep `op` and every field but some: one field pattern each. -/
theorem mask_pack : (0xFF0F00FF : CmdWord) = packV 0xFF 0 0xF 0 0xFF ∧ (0xFF0FFFFF : CmdWord) = packV 0xFF 0 0xF 0xFF 0xFF ∧
    (0xFF00FFFF : CmdWord) = packV 0xFF 0 0 0xFF 0xFF ∧ (0xFF0F0000 : CmdWord) = packV 0xFF 0 0xF 0 0 ∧
    (0xFFFF00FF : CmdWord) = packV 0xFF 0xF 0xF 0 0xFF := by decide

/-- A word masked by a field pattern whose kept fields are zero in it, except `op`. -/
theorem packV_masked (op : BitVec 8) (d md s ms : SlotNo) (a ma b mb : SmallOp) (hd : d &&& md = 0) (hs : s &&& ms = 0)
    (ha : a &&& ma = 0) (hb : b &&& mb = 0) : packV op d s a b &&& packV 0xFF md ms ma mb = packV op 0 0 0 0 := by
  rw [packV_and, hd, hs, ha, hb, show op &&& 0xFF = op from BitVec.and_allOnes]

theorem EncodesItsRow.create (d : SlotNo) (n : SmallOp) : EncodesItsRow.Statement (.create d n) :=
  ⟨opField_packV _ _ _ _ _, by
    show packV 0x01 d 0 n 0 &&& 0xFF0F00FF = _
    rw [mask_pack.1]; exact packV_masked _ _ _ _ _ _ _ _ _ BitVec.and_zero rfl BitVec.and_zero rfl⟩

theorem EncodesItsRow.destroy (d : SlotNo) : EncodesItsRow.Statement (.destroy d) :=
  ⟨opField_packV _ _ _ _ _, by
    show packV 0x02 d 0 0 0 &&& 0xFF0FFFFF = _
    rw [mask_pack.2.1]; exact packV_masked _ _ _ _ _ _ _ _ _ BitVec.and_zero rfl rfl rfl⟩

theorem EncodesItsRow.copy (d src : SlotNo) : EncodesItsRow.Statement (.copy d src) :=
  ⟨opField_packV _ _ _ _ _, by
    show packV 0x03 d src 0 0 &&& 0xFF00FFFF = _
    rw [mask_pack.2.2.1]; exact packV_masked _ _ _ _ _ _ _ _ _ BitVec.and_zero BitVec.and_zero rfl rfl⟩

theorem EncodesItsRow.rdblk (d : SlotNo) (idx : BlockIdx) : EncodesItsRow.Statement (.rdblk d idx) :=
  ⟨opField_packX _ _ _ _, by
    show packX 0x04 d 0 idx &&& 0xFF0F0000 = _
    rw [mask_pack.2.2.2.1, packX_eq]
    exact packV_masked _ _ _ _ _ _ _ _ _ BitVec.and_zero rfl BitVec.and_zero BitVec.and_zero⟩

theorem EncodesItsRow.wrblk (d : SlotNo) (idx : BlockIdx) : EncodesItsRow.Statement (.wrblk d idx) :=
  ⟨opField_packX _ _ _ _, by
    show packX 0x05 d 0 idx &&& 0xFF0F0000 = _
    rw [mask_pack.2.2.2.1, packX_eq]
    exact packV_masked _ _ _ _ _ _ _ _ _ BitVec.and_zero rfl BitVec.and_zero BitVec.and_zero⟩

theorem EncodesItsRow.rdstat : EncodesItsRow.Statement .rdstat :=
  ⟨opField_packV _ _ _ _ _, by decide⟩

theorem EncodesItsRow.rdnv (d : SlotNo) : EncodesItsRow.Statement (.rdnv d) :=
  ⟨opField_packV _ _ _ _ _, by
    show packV 0x07 d 0 0 0 &&& 0xFF0FFFFF = _
    rw [mask_pack.2.1]; exact packV_masked _ _ _ _ _ _ _ _ _ BitVec.and_zero rfl rfl rfl⟩

theorem EncodesItsRow.supclr : EncodesItsRow.Statement .supclr :=
  ⟨opField_packV _ _ _ _ _, by decide⟩

theorem EncodesItsRow.suppush (v : SmallOp) : EncodesItsRow.Statement (.suppush v) :=
  ⟨opField_packV _ _ _ _ _, by
    show packV 0x09 0 0 v 0 &&& 0xFFFF00FF = _
    rw [mask_pack.2.2.2.2]; exact packV_masked _ _ _ _ _ _ _ _ _ rfl rfl BitVec.and_zero rfl⟩

theorem EncodesItsRow.rdsup (p : SmallOp) : EncodesItsRow.Statement (.rdsup p) :=
  ⟨opField_packV _ _ _ _ _, by
    show packV 0x0A 0 0 p 0 &&& 0xFFFF00FF = _
    rw [mask_pack.2.2.2.2]; exact packV_masked _ _ _ _ _ _ _ _ _ rfl rfl BitVec.and_zero rfl⟩

theorem EncodesItsRow.hasvar (d : SlotNo) (v : SmallOp) : EncodesItsRow.Statement (.hasvar d v) :=
  ⟨opField_packV _ _ _ _ _, by
    show packV 0x10 d 0 v 0 &&& 0xFF0F00FF = _
    rw [mask_pack.1]; exact packV_masked _ _ _ _ _ _ _ _ _ BitVec.and_zero rfl BitVec.and_zero rfl⟩

theorem EncodesItsRow.cof0i (d : SlotNo) (v : SmallOp) : EncodesItsRow.Statement (.cof0i d v) :=
  ⟨opField_packV _ _ _ _ _, by
    show packV 0x11 d 0 v 0 &&& 0xFF0F00FF = _
    rw [mask_pack.1]; exact packV_masked _ _ _ _ _ _ _ _ _ BitVec.and_zero rfl BitVec.and_zero rfl⟩

theorem EncodesItsRow.cof1i (d : SlotNo) (v : SmallOp) : EncodesItsRow.Statement (.cof1i d v) :=
  ⟨opField_packV _ _ _ _ _, by
    show packV 0x12 d 0 v 0 &&& 0xFF0F00FF = _
    rw [mask_pack.1]; exact packV_masked _ _ _ _ _ _ _ _ _ BitVec.and_zero rfl BitVec.and_zero rfl⟩

theorem EncodesItsRow.swapadji (d : SlotNo) (v : SmallOp) : EncodesItsRow.Statement (.swapadji d v) :=
  ⟨opField_packV _ _ _ _ _, by
    show packV 0x20 d 0 v 0 &&& 0xFF0F00FF = _
    rw [mask_pack.1]; exact packV_masked _ _ _ _ _ _ _ _ _ BitVec.and_zero rfl BitVec.and_zero rfl⟩

theorem EncodesItsRow.swapi (d : SlotNo) (v w : SmallOp) : EncodesItsRow.Statement (.swapi d v w) :=
  ⟨opField_packV _ _ _ _ _, by
    show packV 0x21 d 0 v w &&& 0xFF0F0000 = _
    rw [mask_pack.2.2.2.1]; exact packV_masked _ _ _ _ _ _ _ _ _ BitVec.and_zero rfl BitVec.and_zero BitVec.and_zero⟩

theorem EncodesItsRow.flipi (d : SlotNo) (v : SmallOp) : EncodesItsRow.Statement (.flipi d v) :=
  ⟨opField_packV _ _ _ _ _, by
    show packV 0x22 d 0 v 0 &&& 0xFF0F00FF = _
    rw [mask_pack.1]; exact packV_masked _ _ _ _ _ _ _ _ _ BitVec.and_zero rfl BitVec.and_zero rfl⟩

theorem EncodesItsRow.minbasei (d : SlotNo) : EncodesItsRow.Statement (.minbasei d) :=
  ⟨opField_packV _ _ _ _ _, by
    show packV 0x30 d 0 0 0 &&& 0xFF0FFFFF = _
    rw [mask_pack.2.1]; exact packV_masked _ _ _ _ _ _ _ _ _ BitVec.and_zero rfl rfl rfl⟩

theorem EncodesItsRow.expandi (d : SlotNo) : EncodesItsRow.Statement (.expandi d) :=
  ⟨opField_packV _ _ _ _ _, by
    show packV 0x31 d 0 0 0 &&& 0xFF0FFFFF = _
    rw [mask_pack.2.1]; exact packV_masked _ _ _ _ _ _ _ _ _ BitVec.and_zero rfl rfl rfl⟩

theorem EncodesItsRow.extfill (d src : SlotNo) : EncodesItsRow.Statement (.extfill d src) :=
  ⟨opField_packV _ _ _ _ _, by
    show packV 0x40 d src 0 0 &&& 0xFF00FFFF = _
    rw [mask_pack.2.2.1]; exact packV_masked _ _ _ _ _ _ _ _ _ BitVec.and_zero BitVec.and_zero rfl rfl⟩

theorem EncodesItsRow.nexti (d : SlotNo) : EncodesItsRow.Statement (.nexti d) :=
  ⟨opField_packV _ _ _ _ _, by
    show packV 0x50 d 0 0 0 &&& 0xFF0FFFFF = _
    rw [mask_pack.2.1]; exact packV_masked _ _ _ _ _ _ _ _ _ BitVec.and_zero rfl rfl rfl⟩

theorem EncodesItsRow.shli (d : SlotNo) : EncodesItsRow.Statement (.shli d) :=
  ⟨opField_packV _ _ _ _ _, by
    show packV 0x51 d 0 0 0 &&& 0xFF0FFFFF = _
    rw [mask_pack.2.1]; exact packV_masked _ _ _ _ _ _ _ _ _ BitVec.and_zero rfl rfl rfl⟩

end Sys2Proof.Laws
end

