-- ==== Sys2Proof/Laws/Permutation.lean ====
section
/-! SUPPORT. The permutation engine's word algorithms compute their functional definitions: one lemma per regime, then one
per table function. -/

namespace Sys2Proof.Machine

/-- R165 and R166 compute R164. -/
theorem Table.flip_isFlip {t : Table} (h : t.wf = true) {i : Nat} (hi : i < t.n) : t.IsFlip i (t.flip i) := by
  unfold Table.IsFlip Table.flip
  split
  · next h6 =>
    exact Table.mapWords_isBits h (inWord_idxFlip h6) (below_idxFlip hi) fun w p hp => wordFlip_bit h6 hp w
  · next h6 =>
    refine Table.rebuild_isBits (by omega) fun k _ => ?_
    simp only [Table.bit, idxFlip_div k (show 6 ≤ i by omega), idxFlip_mod k (show 6 ≤ i by omega)]
    rw [show idxFlip (k / 64) (i - 6) = if blockVar i (k / 64) then k / 64 - stride i else k / 64 + stride i from idxFlip_eq _ _]
    split_ifs <;> rfl

/-- R159 computes R157 for two in-word variables. -/
theorem Table.swapInWord_isSwap {t : Table} (h : t.wf = true) {i j : Nat} (hij : i < j) (h6 : j < 6) (hj : j < t.n) :
    t.IsSwap i j (t.swapInWord i j) :=
  Table.mapWords_isBits h (inWord_idxExchange (by omega) h6) (below_idxExchange (by omega) hj)
    fun w p hp => interleave_bit hij h6 hp w

/-- R160 computes R157 for an in-word and a block variable. -/
theorem Table.swapStraddle_isSwap {t : Table} {i j : Nat} (h6 : i < 6) (h6' : 6 ≤ j) (hj : j < t.n) :
    t.IsSwap i j (t.swapStraddle i j) := by
  refine Table.rebuild_isBits (by omega) fun k _ => ?_
  have hm : k % 64 < 64 := Nat.mod_lt _ (by norm_num)
  have hbi : (k % 64).testBit i = k.testBit i := by rw [testBit_mod64]; simp [h6]
  have hpow : 2 ^ j = 64 * stride j := by
    obtain ⟨m, rfl⟩ := Nat.exists_eq_add_of_le h6'
    simp [stride, Nat.pow_add]
  have hk : k = 64 * (k / 64) + k % 64 := by omega
  rw [blockVar_div h6']
  cases hj1 : k.testBit j
  · simp only [Bool.false_eq_true, if_false, BitVec.getLsbD_or, BitVec.getLsbD_and, BitVec.getLsbD_shiftLeft,
      nproj_bit i h6 _ hm, hbi]
    cases hi1 : k.testBit i
    · have e : idxExchange k i j = k := by simp [idxExchange, hi1, hj1]
      by_cases hle : 2 ^ i ≤ k % 64
      · have := borrow_testBit i h6 _ hm (by simpa using hle) (by rw [hbi, hi1])
        rw [nproj_bit i h6 _ (Nat.lt_of_le_of_lt (Nat.sub_le _ _) hm), this]
        simp [e, Table.bit]
      · simp [e, Table.bit, hle]
    · have hle : 2 ^ i ≤ k % 64 := set_le_lt i h6 _ hm (by rw [hbi, hi1])
      have hs : k % 64 - 2 ^ i < 64 := Nat.lt_of_le_of_lt (Nat.sub_le _ _) hm
      have hc : (k % 64 - 2 ^ i).testBit i = false := by
        rw [← idxFlip_of_set (by rw [hbi, hi1]), testBit_idxFlip, hbi]; simp [hi1]
      have e : idxExchange k i j = 64 * (k / 64 + stride j) + (k % 64 - 2 ^ i) := by
        have e1 : idxExchange k i j = idxFlip (idxFlip k i) j := by simp [idxExchange, idxFlip, hi1, hj1]
        rw [e1, idxFlip_of_set hi1, idxFlip_of_clear, hpow]
        · omega
        · rw [← idxFlip_of_set hi1, testBit_idxFlip, hj1]; simp; omega
      rw [e, Table.bit_block t _ _ hs, nproj_bit i h6 _ hs, hc]
      simp [hm, hle]
  · simp only [if_true, BitVec.getLsbD_or, BitVec.getLsbD_and, BitVec.getLsbD_ushiftRight, proj_bit i h6 _ hm, hbi]
    cases hi1 : k.testBit i
    · have hs : k % 64 + 2 ^ i < 64 := clear_add_lt i h6 _ hm (by rw [hbi, hi1])
      have hgej : 2 ^ j ≤ k := Nat.ge_two_pow_of_testBit hj1
      have e : idxExchange k i j = 64 * (k / 64 - stride j) + (k % 64 + 2 ^ i) := by
        have e1 : idxExchange k i j = idxFlip (idxFlip k j) i := by
          simp only [idxExchange, idxFlip, hi1, hj1, Bool.false_eq_true, if_false]
          rw [Nat.xor_assoc, Nat.xor_assoc, Nat.xor_comm (2 ^ i)]
        rw [e1, idxFlip_of_set hj1, idxFlip_of_clear, hpow]
        · rw [hpow] at hgej; omega
        · rw [← idxFlip_of_set hj1, testBit_idxFlip, hi1]; simp; omega
      rw [e, Table.bit_block t _ _ hs, proj_bit i h6 (2 ^ i + k % 64) (by omega), Nat.testBit_two_pow_add_eq, hbi, hi1]
      simp [Nat.add_comm]
    · have e : idxExchange k i j = k := by simp [idxExchange, hi1, hj1]
      by_cases hlt : 2 ^ i + k % 64 < 64
      · rw [proj_bit i h6 _ hlt, Nat.testBit_two_pow_add_eq, hbi, hi1]
        simp [e, Table.bit]
      · rw [BitVec.getLsbD_of_ge (proj i) (2 ^ i + k % 64) (by omega)]
        simp [e, Table.bit]

theorem stride_lt {i j : Nat} (h6 : 6 ≤ i) (hij : i < j) : stride i < stride j :=
  Nat.pow_lt_pow_right (by norm_num) (by omega)

/-- The block that the exchange of two block variables brings to block `b`. -/
theorem idxExchange_block (b : Nat) {i j : Nat} (h6 : 6 ≤ i) (hij : i < j) :
    idxExchange b (i - 6) (j - 6) =
      if blockVar i b && !blockVar j b then b + stride j - stride i
      else if !blockVar i b && blockVar j b then b + stride i - stride j
      else b := by
  have hne : i - 6 ≠ j - 6 := by omega
  unfold idxExchange blockVar stride
  cases hi : b.testBit (i - 6) <;> cases hj : b.testBit (j - 6)
  · simp
  · have e : b ^^^ 2 ^ (i - 6) ^^^ 2 ^ (j - 6) = idxFlip (idxFlip b (i - 6)) (j - 6) := rfl
    have hj' : (idxFlip b (i - 6)).testBit (j - 6) = true := by rw [testBit_idxFlip, hj]; simp; omega
    simp only [Bool.false_eq_true, if_false, Bool.false_and, Bool.not_false, Bool.true_and, if_true]
    rw [e, idxFlip_of_set hj', idxFlip_of_clear hi]
  · have e : b ^^^ 2 ^ (i - 6) ^^^ 2 ^ (j - 6) = idxFlip (idxFlip b (j - 6)) (i - 6) := by
      unfold idxFlip
      rw [Nat.xor_assoc, Nat.xor_assoc, Nat.xor_comm (2 ^ (i - 6))]
    have hi' : (idxFlip b (j - 6)).testBit (i - 6) = true := by rw [testBit_idxFlip, hi]; simp; omega
    simp only [Bool.true_eq_false, if_false, Bool.true_and, Bool.not_false, if_true]
    rw [e, idxFlip_of_set hi', idxFlip_of_clear hj]
  · simp

/-- R161 computes R157 for two block variables. -/
theorem Table.swapBlocks_isSwap {t : Table} {i j : Nat} (h6 : 6 ≤ i) (hij : i < j) (hj : j < t.n) :
    t.IsSwap i j (t.swapBlocks i j) := by
  refine Table.rebuild_isBits (by omega) fun k _ => ?_
  simp only [Table.bit, idxExchange_div k h6 (show 6 ≤ j by omega), idxExchange_mod k h6 (show 6 ≤ j by omega),
    idxExchange_block (k / 64) h6 hij]
  split_ifs <;> rfl

theorem Table.swapOrdered_isSwap {t : Table} (h : t.wf = true) {i j : Nat} (hij : i < j) (hj : j < t.n) :
    t.IsSwap i j (t.swapOrdered i j) := by
  unfold Table.swapOrdered
  split_ifs
  · exact Table.swapInWord_isSwap h hij (by assumption) hj
  · exact Table.swapStraddle_isSwap (by assumption) (by omega) hj
  · exact Table.swapBlocks_isSwap (by omega) hij hj

/-- R158 computes R157. -/
theorem Table.swap_isSwap {t : Table} (h : t.wf = true) {i j : Nat} (hi : i < t.n) (hj : j < t.n) :
    t.IsSwap i j (t.swap i j) := by
  unfold Table.swap
  split_ifs with h1 h2
  · subst h1
    exact ⟨rfl, h, fun k _ => (congrArg t.bit (idxExchange_self k i)).symm⟩
  · exact Table.swapOrdered_isSwap h h2 hj
  · have hs := Table.swapOrdered_isSwap h (show j < i by omega) hi
    exact ⟨hs.1, hs.2.1, fun k hk => (hs.2.2 k hk).trans (congrArg t.bit (idxExchange_comm k j i))⟩

/-- Regime (b), R154, is the straddling exchange of variables 5 and 6. -/
theorem Table.swapMidpoint_eq (t : Table) : t.swapMidpoint = t.swapStraddle 5 6 := by
  unfold Table.swapMidpoint Table.swapStraddle Table.rebuild
  congr 1
  apply List.map_congr_left
  intro b _
  have hs : stride 6 = 1 := rfl
  have hp : (2 : Nat) ^ 5 = 32 := rfl
  have hb : blockVar 6 b = decide (b % 2 = 1) := by simp [blockVar, Nat.testBit_zero]
  rw [hb, hs, hp]
  by_cases h : b % 2 = 0
  · rw [if_pos h, if_neg (by rw [decide_eq_true_eq]; omega)]
    rfl
  · rw [if_neg h, if_pos (by rw [decide_eq_true_eq]; omega), BitVec.or_comm]
    congr 1
    apply BitVec.eq_of_getLsbD_eq
    intro p hp
    rw [BitVec.getLsbD_ushiftRight, BitVec.getLsbD_ushiftRight, BitVec.getLsbD_and]
    by_cases hlt : 32 + p < 64
    · have hbit : (proj 5).getLsbD (32 + p) = true := (highHalf_bit _ hlt).trans (by simp)
      rw [hbit, Bool.and_true]
    · rw [BitVec.getLsbD_of_ge (t.block (b - 1)) (32 + p) (by omega), Bool.false_and]

/-- Regime (c), R155, is the exchange of two adjacent block variables. -/
theorem Table.swapQuarters_eq (t : Table) {i : Nat} (h6 : 6 ≤ i) : t.swapQuarters i = t.swapBlocks i (i + 1) := by
  have hs : stride (i + 1) = 2 * stride i := by
    rw [stride, stride, show i + 1 - 6 = (i - 6) + 1 by omega, Nat.pow_succ]; omega
  unfold Table.swapQuarters Table.swapBlocks Table.rebuild
  congr 1
  apply List.map_congr_left
  intro b _
  rw [hs, show b + 2 * stride i - stride i = b + stride i by omega, show b + stride i - 2 * stride i = b - stride i by omega]

/-- R153, R154 and R155 compute R152. -/
theorem Table.swapAdj_isSwap {t : Table} (h : t.wf = true) {i : Nat} (hi : i + 1 < t.n) :
    t.IsSwap i (i + 1) (t.swapAdj i) := by
  unfold Table.swapAdj
  split_ifs with h1 h2
  · rw [← perm_shift i]
    exact Table.swapInWord_isSwap h (by omega) (by omega) hi
  · subst h2
    rw [Table.swapMidpoint_eq]
    exact Table.swapStraddle_isSwap (by norm_num) (by norm_num) hi
  · rw [Table.swapQuarters_eq t (by omega)]
    exact Table.swapBlocks_isSwap (by omega) (by omega) hi

end Sys2Proof.Machine
end

