-- ==== Sys2Proof/Laws/ShiftEnum.lean ====
section
/-! SUPPORT. The value of a table as one number, and the shift and enumeration engine's word algorithms. -/

namespace Sys2Proof.Machine

/-! ### The value of a table -/

theorem blocksVal_lt (l : List Block) : blocksVal l < 2 ^ (64 * l.length) := by
  induction l with
  | nil => simp [blocksVal]
  | cons w ws ih =>
    have hw := w.isLt
    have e : 2 ^ (64 * (w :: ws).length) = 2 ^ 64 * 2 ^ (64 * ws.length) := by
      rw [List.length_cons, Nat.mul_add, Nat.pow_add, Nat.mul_comm]
    rw [e, blocksVal]
    omega

theorem blocksVal_testBit (l : List Block) (k : Nat) :
    (blocksVal l).testBit k = (l.getD (k / 64) 0).getLsbD (k % 64) := by
  induction l generalizing k with
  | nil => simp [blocksVal]
  | cons w ws ih =>
    rw [blocksVal, Nat.add_comm, Nat.testBit_two_pow_mul_add _ w.isLt]
    split
    · next h =>
      rw [Nat.div_eq_of_lt h, Nat.mod_eq_of_lt h]
      simp [BitVec.getLsbD]
    · next h =>
      rw [ih, show k / 64 = (k - 64) / 64 + 1 by omega, show (k - 64) % 64 = k % 64 by omega]
      simp

/-- `bit(t, k)` is bit `k` of `VAL(t)` (R15). -/
theorem Table.val_testBit (t : Table) (k : Nat) : t.val.testBit k = t.bit k :=
  blocksVal_testBit t.blk k

theorem Table.val_lt {t : Table} (h : t.wf = true) : t.val < 2 ^ LEN t.n :=
  lt_two_pow_of_bits fun m hm => by rw [Table.val_testBit]; exact Table.bit_of_ge h hm

/-- A table with `NB(n)` blocks whose value is below `2^LEN(n)` is well formed. -/
theorem Table.wf_of_val_lt {t : Table} (hl : t.blk.length = NB t.n) (h : t.val < 2 ^ LEN t.n) : t.wf = true := by
  rw [Table.wf_iff]
  refine ⟨hl, fun p hp hle => ?_⟩
  have e := Table.bit_block t 0 p hp
  rw [Nat.mul_zero, Nat.zero_add] at e
  rw [← e, ← Table.val_testBit]
  exact testBit_of_lt_two_pow h hle

/-- Well-formed tables of one arity and one value are equal (R17). -/
theorem Table.ext_val {t u : Table} (ht : t.wf = true) (hu : u.wf = true) (hn : t.n = u.n) (h : t.val = u.val) : t = u :=
  Table.ext_bits ht hu hn fun k _ => by rw [← Table.val_testBit, ← Table.val_testBit, h]

/-! ### NEXTI -/

theorem incBlocks_length (l : List Block) : (incBlocks l).length = l.length := by
  induction l with
  | nil => rfl
  | cons w ws ih => unfold incBlocks; split <;> simp [ih]

theorem add_one_toNat_of_ne {w : Block} (h : ¬ w + 1 = 0) : (w + 1).toNat = w.toNat + 1 := by
  have hw := w.isLt
  rw [BitVec.toNat_add]
  by_cases hm : w.toNat + 1 = 2 ^ 64
  · exact absurd (BitVec.eq_of_toNat_eq (by rw [BitVec.toNat_add]; simp [hm])) h
  · exact Nat.mod_eq_of_lt (by simp; omega)

theorem toNat_of_add_one_eq_zero {w : Block} (h : w + 1 = 0) : w.toNat + 1 = 2 ^ 64 := by
  have hw := w.isLt
  have e := congrArg BitVec.toNat h
  rw [BitVec.toNat_add] at e
  by_contra hc
  rw [Nat.mod_eq_of_lt (by simp; omega)] at e
  simp at e

/-- The carry chain of R212 adds 1 to the value, modulo the width of the block sequence. -/
theorem blocksVal_incBlocks (l : List Block) : blocksVal (incBlocks l) = (blocksVal l + 1) % 2 ^ (64 * l.length) := by
  induction l with
  | nil => simp [incBlocks, blocksVal]
  | cons w ws ih =>
    have hws := blocksVal_lt ws
    have e : 2 ^ (64 * (w :: ws).length) = 2 ^ 64 * 2 ^ (64 * ws.length) := by
      rw [List.length_cons, Nat.mul_add, Nat.pow_add, Nat.mul_comm]
    rw [e]
    unfold incBlocks
    split
    · next h =>
      have hw := toNat_of_add_one_eq_zero h
      rw [blocksVal, blocksVal, ih, h]
      rw [show w.toNat + 2 ^ 64 * blocksVal ws + 1 = 2 ^ 64 * (blocksVal ws + 1) by omega, Nat.mul_mod_mul_left]
      simp
    · next h =>
      have hw := (w + 1).isLt
      rw [blocksVal, blocksVal, add_one_toNat_of_ne h]
      rw [add_one_toNat_of_ne h] at hw
      rw [Nat.mod_eq_of_lt (by omega)]
      omega

theorem Table.maskFirst_of_six_le {t : Table} (h : 6 ≤ t.n) : t.maskFirst = t := by
  have hm : lenMask t.n = BitVec.allOnes 64 := if_neg (by omega)
  unfold Table.maskFirst Table.setBlock
  rw [hm, BitVec.and_allOnes]
  have : t.blk.set 0 (t.block 0) = t.blk := by
    apply List.ext_getElem (by simp)
    intro b h1 h2
    by_cases hb : 0 = b
    · subst hb; simp [Table.block]; exact List.getD_eq_getElem _ _ h2
    · simp [hb]
  rw [this]

theorem block_and_lenMask_toNat {n : Nat} (h : n < 6) (w : Block) : (w &&& lenMask n).toNat = w.toNat % 2 ^ LEN n := by
  have hlt : 2 ^ (2 ^ n) - 1 < 2 ^ 64 := by
    have : (2 : Nat) ^ (2 ^ n) ≤ 2 ^ 64 := Nat.pow_le_pow_right (by norm_num) (LEN_le (n := n) (by omega))
    have := Nat.two_pow_pos (2 ^ n)
    omega
  rw [lenMask, if_pos h, BitVec.toNat_and, BitVec.toNat_ofNat, Nat.mod_eq_of_lt hlt, Nat.and_two_pow_sub_one_eq_mod]
  rfl

/-- R212 computes R211. -/
theorem Table.next_spec {t : Table} (h : t.wf = true) :
    t.next.n = t.n ∧ t.next.wf = true ∧ t.next.val = (t.val + 1) % 2 ^ LEN t.n := by
  have hl := Table.length_of_wf h
  have hlen : (incBlocks t.blk).length = NB t.n := by rw [incBlocks_length, hl]
  by_cases h6 : 6 ≤ t.n
  · have hval : Table.val { t with blk := incBlocks t.blk } = (t.val + 1) % 2 ^ LEN t.n := by
      rw [LEN_eq h6, ← hl]; exact blocksVal_incBlocks t.blk
    have e : t.next = { t with blk := incBlocks t.blk } := by
      unfold Table.next
      split
      · exact Table.maskFirst_of_six_le (t := { t with blk := incBlocks t.blk }) h6
      · rfl
    rw [e]
    exact ⟨rfl, Table.wf_of_six_le h6 hlen, hval⟩
  · have hnb : t.blk.length = 1 := by rw [hl, NB_of_le (by omega)]
    obtain ⟨w, hw⟩ := List.length_eq_one_iff.1 hnb
    have e : t.next = { n := t.n, blk := [(w + 1) &&& lenMask t.n] } := by
      unfold Table.next
      rw [if_pos (by omega), hw]
      have : incBlocks [w] = [w + 1] := by unfold incBlocks; split <;> rfl
      rw [this]
      rfl
    have hwv : t.val = w.toNat := by simp [Table.val, hw, blocksVal]
    have hv : Table.val { n := t.n, blk := [(w + 1) &&& lenMask t.n] } = (t.val + 1) % 2 ^ LEN t.n := by
      have hdvd : (2 : Nat) ^ LEN t.n ∣ 2 ^ 64 := Nat.pow_dvd_pow 2 (LEN_le (by omega))
      simp only [Table.val, blocksVal, Nat.mul_zero, Nat.add_zero] at hwv ⊢
      rw [block_and_lenMask_toNat (by omega), BitVec.toNat_add, Nat.mod_mod_of_dvd _ hdvd, hwv]
      rfl
    rw [e]
    refine ⟨rfl, Table.wf_of_val_lt (by simp [NB_of_le (show t.n ≤ 6 by omega)]) ?_, hv⟩
    rw [hv]
    exact Nat.mod_lt _ (Nat.two_pow_pos _)

/-! ### SHLI -/

theorem Table.shlWord_isShl {t : Table} (h : t.wf = true) (hn : t.n ≤ 6) (sh : Nat) : t.IsShl sh (t.shlWord sh) := by
  have hl : t.blk.length = 1 := by rw [Table.length_of_wf h, NB_of_le hn]
  have hb0 : (t.shlWord sh).block 0 = if 64 ≤ sh then 0 else (t.block 0 <<< sh) &&& lenMask t.n := by
    unfold Table.shlWord
    rw [Table.block_setBlock t (by omega), if_pos rfl]
  have hbit : ∀ p, p < 64 → ((t.shlWord sh).block 0).getLsbD p
      = (decide (p < LEN t.n) && (decide (sh ≤ p) && (t.block 0).getLsbD (p - sh))) := by
    intro p hp
    rw [hb0]
    split
    · next h64 => rw [decide_eq_false (show ¬ sh ≤ p by omega)]; simp
    · rw [BitVec.getLsbD_and, BitVec.getLsbD_shiftLeft, lenMask_bit _ _ hp, decide_eq_true hp, Bool.true_and,
        ← decide_not, Bool.and_comm]
      congr 2
      exact decide_eq_decide.mpr Nat.not_lt
  refine ⟨rfl, ?_, fun k hk => ?_⟩
  · rw [Table.wf_iff]
    refine ⟨by simp [Table.shlWord, Table.setBlock, hl, NB_of_le hn], fun p hp hle => ?_⟩
    rw [hbit p hp, decide_eq_false (show ¬ p < LEN t.n from Nat.not_lt.mpr hle), Bool.false_and]
  · have hk64 : k < 64 := Nat.lt_of_lt_of_le hk (LEN_le hn)
    have e1 := Table.bit_block (t.shlWord sh) 0 k hk64
    have e2 := Table.bit_block t 0 (k - sh) (by omega)
    rw [Nat.mul_zero, Nat.zero_add] at e1 e2
    show _ = (decide (sh ≤ k) && t.bit (k - sh))
    rw [e1, hbit k hk64, e2, decide_eq_true hk, Bool.true_and]

theorem shlBlock_bit (t : Table) (sh k : Nat) :
    (shlBlock t (sh / 64) (sh % 64) (k / 64)).getLsbD (k % 64) = (decide (sh ≤ k) && t.bit (k - sh)) := by
  have hm : k % 64 < 64 := Nat.mod_lt _ (by norm_num)
  have hr : sh % 64 < 64 := Nat.mod_lt _ (by norm_num)
  unfold shlBlock
  split
  · next h => rw [decide_eq_false (show ¬ sh ≤ k by omega)]; simp
  · next h =>
    by_cases hle : sh % 64 ≤ k % 64
    · have e : t.bit (k - sh) = (t.block (k / 64 - sh / 64)).getLsbD (k % 64 - sh % 64) := by
        rw [show k - sh = 64 * (k / 64 - sh / 64) + (k % 64 - sh % 64) by omega, Table.bit_block _ _ _ (by omega)]
      rw [decide_eq_true (show sh ≤ k by omega), e, Bool.true_and]
      split
      · rw [BitVec.getLsbD_or, BitVec.getLsbD_shiftLeft, BitVec.getLsbD_ushiftRight,
          BitVec.getLsbD_of_ge _ (64 - sh % 64 + k % 64) (by omega)]
        simp [hm, hle]
      · rw [BitVec.getLsbD_shiftLeft]
        simp [hm, hle]
    · split
      · next hc =>
        have e : t.bit (k - sh) = (t.block (k / 64 - sh / 64 - 1)).getLsbD (64 - sh % 64 + k % 64) := by
          rw [show k - sh = 64 * (k / 64 - sh / 64 - 1) + (64 - sh % 64 + k % 64) by omega,
            Table.bit_block _ _ _ (by omega)]
        rw [decide_eq_true (show sh ≤ k by omega), e, BitVec.getLsbD_or, BitVec.getLsbD_shiftLeft,
          BitVec.getLsbD_ushiftRight]
        simp [hle]
      · next hc =>
        rw [decide_eq_false (show ¬ sh ≤ k by omega), BitVec.getLsbD_shiftLeft]
        simp
        omega

/-- R215, R216 and R217 compute R214. -/
theorem Table.shl_isShl {t : Table} (h : t.wf = true) (sh : Nat) : t.IsShl sh (t.shl sh) := by
  unfold Table.shl
  split_ifs with h1 h2
  · exact Table.shlWord_isShl h h1 sh
  · refine Table.rebuild_isBits (by omega) fun k hk => ?_
    rw [decide_eq_false (show ¬ sh ≤ k by omega)]
    simp
  · exact Table.rebuild_isBits (by omega) fun k _ => shlBlock_bit t sh k

end Sys2Proof.Machine
end

