-- ==== Sys2Proof/Laws/Step.lean ====
section
/-! SUPPORT. What a step can do, said once: it waits, it resets, or it performs the command the host presents. -/

namespace Sys2Proof.Machine

theorem recordOutcome_next {o : Outcome} {t : State} (h : recordOutcome o = .next t) :
    ∃ u, o = .next u ∧ t = recordAnswer u := by
  cases o with
  | next u => exact ⟨u, rfl, by injection h with h; exact h.symm⟩
  | fault e => cases h
  | refused e => cases h

/-- Everything that performing the word on the port lines can do. -/
theorem performWord_cases (s : State) :
    (∃ i, decode s.cmd.cw = .ok i ∧ performWord s = exec i s) ∨
    (∃ e, decode s.cmd.cw = .error e ∧ performWord s = .next (if s.f then ignore s else raise .illegalCmd s)) := by
  cases h : decode s.cmd.cw with
  | ok i => exact .inl ⟨i, rfl, by simp [performWord, h]⟩
  | error e => exact .inr ⟨e, rfl, by simp [performWord, performIllegal, h]⟩

/-- Everything that a step can do. -/
theorem step_cases {s t : State} (h : step s = .next t) :
    s.cfg.valid = true ∧
    ((s.pending = [] ∧ t = s) ∨
     (∃ rest, s.pending = .reset :: rest ∧ t = applyReset { s with pending := rest }) ∨
     (∃ c rest u, s.pending = .command c :: rest ∧ performWord (present c rest s) = .next u ∧ t = recordAnswer u)) := by
  unfold step at h
  split at h
  · next hv =>
    refine ⟨hv, ?_⟩
    unfold advance at h
    split at h
    · next hp => exact .inl ⟨hp, by injection h with h; exact h.symm⟩
    · next rest hp => exact .inr (.inl ⟨rest, hp, by injection h with h; exact h.symm⟩)
    · next c rest hp =>
      obtain ⟨u, hu, ht⟩ := recordOutcome_next h
      exact .inr (.inr ⟨c, rest, u, hp, hu, ht⟩)
  · cases h

/-- A step at a command: the command is performed on the port lines, and its answer joins the outputs. -/
theorem step_command {s : State} (hv : s.cfg.valid = true) {c : Command} {rest : List Event}
    (hp : s.pending = .command c :: rest) : step s = recordOutcome (performWord (present c rest s)) := by
  simp [step, hv, advance, hp]

end Sys2Proof.Machine
end

