-- ==== Sys2Proof/Laws/SupportMin.lean ====
section
/-! SUPPORT. What MINBASEI's scan and EXPANDI's swaps keep: well-formedness, the arity, and the bounds of the support list. -/

namespace Sys2Proof.Machine

theorem Table.swap_wf {t : Table} (h : t.wf = true) {i j : Nat} (hi : i < t.n) (hj : j < t.n) :
    (t.swap i j).wf = true ∧ (t.swap i j).n = t.n :=
  ⟨(Table.swap_isSwap h hi hj).2.1, (Table.swap_isSwap h hi hj).1⟩

/-- What MINBASEI's scan has kept after the indices below `m`. -/
structure ScanKept (n m : Nat) (acc : Table × List SupEntry) : Prop where
  wf : acc.1.wf = true
  arity : acc.1.n = n
  length : acc.2.length ≤ m
  entries : ∀ v ∈ acc.2, v.toNat < m

theorem minBaseTurn_kept {n m : Nat} {acc : Table × List SupEntry} (h : ScanKept n m acc) (hm : m < n) :
    ScanKept n (m + 1) (minBaseTurn acc m) := by
  unfold minBaseTurn
  split
  · have hl := h.length
    have hsw := Table.swap_wf h.wf (i := acc.2.length) (j := m) (by rw [h.arity]; omega) (by rw [h.arity]; omega)
    refine ⟨?_, ?_, by simpa using hl, fun v hv => ?_⟩
    · dsimp only; split
      · exact hsw.1
      · exact h.wf
    · dsimp only; split
      · exact hsw.2.trans h.arity
      · exact h.arity
    · rcases List.mem_append.1 hv with hv | hv
      · exact Nat.lt_succ_of_lt (h.entries v hv)
      · rw [List.mem_singleton] at hv
        subst hv
        rw [BitVec.toNat_ofNat]
        exact Nat.lt_succ_of_le (Nat.mod_le _ _)
  · exact ⟨h.wf, h.arity, Nat.le_succ_of_le h.length, fun v hv => Nat.lt_succ_of_lt (h.entries v hv)⟩

/-- MINBASEI's scan keeps the table well formed and of its arity, and its list has at most `n` entries, each below `n`. -/
theorem Table.minBase_kept {t : Table} (h : t.wf = true) : ScanKept t.n t.n t.minBase := by
  suffices hs : ∀ m, m ≤ t.n → ScanKept t.n m ((List.range m).foldl minBaseTurn (t, [])) from hs t.n le_rfl
  intro m
  induction m with
  | zero => exact fun _ => ⟨h, rfl, le_rfl, by simp⟩
  | succ m ih =>
    intro hm
    rw [List.range_succ, List.foldl_append, List.foldl_cons, List.foldl_nil]
    exact minBaseTurn_kept (ih (by omega)) (by omega)

theorem foldr_swap_kept {t : Table} (h : t.wf = true) (l : List (SupEntry × Nat))
    (hl : ∀ e ∈ l, e.2 < t.n ∧ e.1.toNat < t.n) :
    (l.foldr (fun e u => u.swap e.2 e.1.toNat) t).wf = true ∧ (l.foldr (fun e u => u.swap e.2 e.1.toNat) t).n = t.n := by
  induction l with
  | nil => exact ⟨h, rfl⟩
  | cons e l ih =>
    obtain ⟨hw, hn⟩ := ih fun x hx => hl x (List.mem_cons_of_mem _ hx)
    obtain ⟨h1, h2⟩ := hl e List.mem_cons_self
    rw [List.foldr_cons]
    have := Table.swap_wf hw (hn ▸ h1) (hn ▸ h2)
    exact ⟨this.1, this.2.trans hn⟩

theorem expandLegal_iff (t : Table) (sup : List SupEntry) :
    expandLegal t sup = true ↔ sup.length ≤ t.n ∧ ∀ v ∈ sup, v.toNat < t.n := by
  simp only [expandLegal, Bool.and_eq_true, decide_eq_true_eq, List.all_eq_true]

/-- EXPANDI's swaps, when all are legal, keep the table well formed and of its arity. -/
theorem Table.expand_kept {t : Table} (h : t.wf = true) {sup : List SupEntry} (hs : expandLegal t sup = true) :
    (t.expand sup).wf = true ∧ (t.expand sup).n = t.n := by
  obtain ⟨hl, he⟩ := (expandLegal_iff t sup).1 hs
  refine foldr_swap_kept h _ fun e hm => ?_
  obtain ⟨_, hlt, heq⟩ := List.mem_zipIdx (x := e.1) (i := e.2) hm
  refine ⟨by omega, he _ ?_⟩
  rw [heq]
  exact List.getElem_mem _

/-- EXPANDI with one more entry at the end of the list does that entry's swap first. -/
theorem Table.expand_concat (t : Table) (sup : List SupEntry) (v : SupEntry) :
    t.expand (sup ++ [v]) = (t.swap sup.length v.toNat).expand sup := by
  simp [Table.expand, List.zipIdx_append]

end Sys2Proof.Machine
end

