-- ==== Sys2Proof/Tests/Slice0.lean ====
section
/-! SUPPORT. The model's own tests: words written out from the encoding tables of `spec/30_encoding.md`, ill-formed commands
that the check refuses, one small step for every command with its result taken from `spec/95_test_vectors.md`, and for every
statement with hypotheses a concrete state and operands that meet them. -/

namespace Sys2Proof.Tests

open Sys2Proof Sys2Proof.Machine


/-! ### Helpers -/

/-- The unit of the test vectors with two slots given. -/
def unit (a b : Slot) : State := { State.reset with slots := [a, b, .empty, .empty] }

/-- The same with a support list. -/
def unitSup (a : Slot) (l : List SupEntry) : State := { unit a .empty with sup := l }

/-- A slot holding a table. -/
def table (n : Nat) (blk : List Block) : Slot := .live { n := n, blk := blk }

/-- The table `0xA0` of three variables, of the worked examples. -/
def tableA0 : Table := { n := 3, blk := [0xA0] }

/-- A table of two blocks. -/
def table7 : Table := { n := 7, blk := [0x0123456789ABCDEF, 0xFEDCBA9876543210] }

/-- The state in which the host presents one command next. -/
def presenting (cw : CmdWord) (wdata : Block) (s : State) : State :=
  { s with pending := [.command { cw := cw, wdata := wdata }] }

/-- The state with one command on the port lines. -/
def onPort (cw : CmdWord) (wdata : Block) (s : State) : State :=
  { s with cmd := { cw := cw, wdata := wdata } }

/-- One step with the command presented gives a next state with this property. -/
def runs (cw : CmdWord) (wdata : Block) (s : State) (check : State → Bool) : Bool :=
  match step (presenting cw wdata s) with
  | .next t => check t
  | .fault _ => false
  | .refused _ => false

/-- After one step with the command presented, slot 0 holds `a`, the answer is `v` and the status is `st`. -/
def gives (cw : CmdWord) (wdata : Block) (s : State) (a : Slot) (v st : Block) : Bool :=
  runs cw wdata s fun t => t.slot 0 == a && t.rdata == v && t.status == st && t.outputs == [v]

/-! ### Decoding: words written out from the encoding -/

/-- Bits written out: `op | d | s | a | b`, or `op | d | s | idx` (R81, R82, R84); the store-access commands. -/
theorem test_decode_store :
    decode 0b00000001_0010_0000_00000111_00000000 = .ok (.create 2 7) ∧ decode 0b00000010_1111_0000_00000000_00000000 = .ok (.destroy 15) ∧
    decode 0b00000011_0001_0010_00000000_00000000 = .ok (.copy 1 2) ∧ decode 0b00000100_0001_0000_10000000_00000001 = .ok (.rdblk 1 0x8001) ∧
    decode 0b00000101_0011_0000_00000001_00000010 = .ok (.wrblk 3 0x0102) ∧ decode 0b00000110_0000_0000_00000000_00000000 = .ok .rdstat ∧
    decode 0b00000111_1000_0000_00000000_00000000 = .ok (.rdnv 8) ∧ decode 0b00001000_0000_0000_00000000_00000000 = .ok .supclr ∧
    decode 0b00001001_0000_0000_10000001_00000000 = .ok (.suppush 0x81) ∧ decode 0b00001010_0000_0000_00000110_00000000 = .ok (.rdsup 6) := by
  decide

theorem test_decode_cofactor :
    decode 0b00010000_0001_0000_00000101_00000000 = .ok (.hasvar 1 5) ∧ decode 0b00010001_0010_0000_00000110_00000000 = .ok (.cof0i 2 6) ∧
    decode 0b00010010_0011_0000_11111111_00000000 = .ok (.cof1i 3 255) := by
  decide

theorem test_decode_permutation :
    decode 0b00100000_0001_0000_00000011_00000000 = .ok (.swapadji 1 3) ∧ decode 0b00100001_0001_0000_00000001_00000110 = .ok (.swapi 1 1 6) ∧
    decode 0b00100010_0000_0000_00000010_00000000 = .ok (.flipi 0 2) := by
  decide

theorem test_decode_engines :
    decode 0b00110000_0001_0000_00000000_00000000 = .ok (.minbasei 1) ∧ decode 0b00110001_0001_0000_00000000_00000000 = .ok (.expandi 1) ∧
    decode 0b01000000_0001_0010_00000000_00000000 = .ok (.extfill 1 2) ∧ decode 0b01010000_0100_0000_00000000_00000000 = .ok (.nexti 4) ∧
    decode 0b01010001_0101_0000_00000000_00000000 = .ok (.shli 5) := by
  decide

/-- Words that are no command (rows V30.3, V30.9, V30.13, V30.15). -/
theorem test_decode_illegal :
    decode 0x0B000000 = .error (.undefinedOpcode 0x0B) ∧ decode 0x01010300 = .error (.reservedFieldNotZero .create) ∧
    decode 0x06000001 = .error (.reservedFieldNotZero .rdstat) ∧ decode 0x04010000 = .error (.reservedFieldNotZero .rdblk) := by
  decide

/-- The host's reading of an opcode-table row, and the placing of its word where the next step takes it. -/
theorem test_table_word :
    decodeTableWord 32 0x21100106 = some (.swapi 1 1 6) ∧ decodeTableWord 32 0 = none ∧
    step (State.reset.withFetchWord 32 0x01000300) = step (presenting 0x01000300 0 State.reset) :=
  ⟨by decide, by decide, rfl⟩

/-- The syntax of commands and the expansion of a pseudo-instruction (R90 to R92; the words of the example of R91 and of V40.11). -/
theorem test_assembler :
    syntaxOf 0 (.swapi 1 1 6) = "SWAPI T1, 1, 6" ∧ syntaxOf 0xA0 (.wrblk 0 0) = "WRBLK T0, 0, 160" ∧ syntaxOf 0 .rdstat = "RDSTAT" ∧
    expandPseudo (.shl 1 0 5) = [.command { cw := 0x03100000, wdata := 0 }, .command { cw := 0x51100000, wdata := 5 }] := by
  decide

/-! ### Well-formedness: each check refuses an ill-formed command -/

theorem test_wf_destination : (Instr.hasvar 4 0).dFieldOk Config.standard = false ∧ (Instr.hasvar 3 0).wf Config.standard = true := by decide

theorem test_wf_source : (Instr.copy 0 15).sFieldOk Config.standard = false ∧ (Instr.copy 0 3).wf Config.standard = true := by decide

theorem test_wf_config :
    (Config.mk 23 4 []).valid = false ∧ (Config.mk 8 0 []).valid = false ∧ (Config.mk 8 17 []).valid = false ∧
    (Config.mk 8 4 [some 9]).valid = false ∧ (Config.mk 22 16 [some 22, none]).valid = true := by
  decide

/-! ### One step of every command (`spec/95_test_vectors.md`) -/

/-- V40.4, V40.5. -/
theorem test_create : gives 0x01000800 0 (unit .empty .empty) (table 8 [0, 0, 0, 0]) 0 0 = true ∧
    gives 0x01000900 0 (unit .empty .empty) .empty 0 0x0100090000000042 = true := by decide

/-- V40.9. -/
theorem test_destroy : gives 0x02000000 0 (unit (table 3 [0xA0]) .empty) .empty 0 0 = true := by decide

/-- V40.11 with the slots exchanged, and V40.14 so. -/
theorem test_copy : gives 0x03010000 0 (unit .empty (table 3 [0xA0])) (table 3 [0xA0]) 0 0 = true ∧
    gives 0x03010000 0 (unit (table 2 [0x8]) (table 3 [0xA0])) (table 2 [0x8]) 0 0x0301000000000032 = true := by decide

/-- V40.15, V40.17. -/
theorem test_rdblk : gives 0x04000001 0 (unit (.live table7) .empty) (.live table7) 0xFEDCBA9876543210 0 = true ∧
    gives 0x04000001 0 (unit (table 6 [0x0123456789ABCDEF]) .empty) (table 6 [0x0123456789ABCDEF]) 0 0x0400000100000072 = true := by
  decide

/-- V40.21, V40.23. -/
theorem test_wrblk : gives 0x05000000 0x0123456789ABCDEF (unit (table 5 [0]) .empty) (table 5 [0x89ABCDEF]) 0 0 = true ∧
    gives 0x05000001 0xFEDCBA9876543210 (unit (table 7 [0, 0]) .empty) (table 7 [0, 0xFEDCBA9876543210]) 0 0 = true := by decide

/-- V40.28. -/
theorem test_rdstat : gives 0x06000000 0 { unitSup (table 3 [0xA0]) [0, 2] with r := true } (table 3 [0xA0]) 0x201 0x201 = true := by
  decide

/-- V40.25, V40.26. -/
theorem test_rdnv : gives 0x07000000 0 (unit (table 3 [0xA0]) .empty) (table 3 [0xA0]) 3 0 = true ∧
    gives 0x07000000 0 (unit .empty .empty) .empty 0 0x0700000000000022 = true := by decide

/-- V40.29. -/
theorem test_supclr : gives 0x08000000 0 (unitSup (table 3 [0xA0]) [0, 2]) (table 3 [0xA0]) 0 0 = true := by decide

/-- V40.31, V40.32. -/
theorem test_suppush : runs 0x0900FF00 0 (unit .empty .empty) (fun t => t.sup == [255] && t.status == 0x100) = true ∧
    gives 0x09000100 0 (unitSup .empty [0, 1, 2, 3, 4, 5, 6, 7]) .empty 0 0x0900010000000882 = true := by decide

/-- V40.33, V40.34. -/
theorem test_rdsup : gives 0x0A000100 0 (unitSup .empty [0, 2]) .empty 2 0x200 = true ∧
    gives 0x0A000200 0 (unitSup .empty [0, 2]) .empty 0 0x0A00020000000282 = true := by decide

/-- V41.5, V41.8. -/
theorem test_hasvar : gives 0x10000500 0 (unit (table 6 [0x0123456789ABCDEF]) .empty) (table 6 [0x0123456789ABCDEF]) 1 1 = true ∧
    gives 0x10000600 0 (unit (table 7 [0x0123456789ABCDEF, 0x0123456789ABCDEF]) .empty) (table 7 [0x0123456789ABCDEF, 0x0123456789ABCDEF]) 0 0 = true := by
  decide

/-- V41.29, V41.35. -/
theorem test_cof0i : gives 0x11000000 0 (unit (table 6 [0x0123456789ABCDEF]) .empty) (table 6 [0x0303CFCF0303CFCF]) 0 0 = true ∧
    gives 0x11000600 0 (unit (table 8 [1, 2, 3, 4]) .empty) (table 8 [1, 1, 3, 3]) 0 0 = true := by decide

/-- V41.30, V41.38. -/
theorem test_cof1i : gives 0x12000000 0 (unit (table 6 [0x0123456789ABCDEF]) .empty) (table 6 [0x00330033CCFFCCFF]) 0 0 = true ∧
    gives 0x12000700 0 (unit (table 8 [1, 2, 3, 4]) .empty) (table 8 [3, 4, 3, 4]) 0 0 = true := by decide

/-- V42.5, V42.7, V42.10: one of each regime. -/
theorem test_swapadji : gives 0x20000400 0 (unit (table 6 [0x0123456789ABCDEF]) .empty) (table 6 [0x012389AB4567CDEF]) 0 0 = true ∧
    gives 0x20000500 0 (unit (table 7 [0x1111111122222222, 0x3333333344444444]) .empty) (table 7 [0x4444444422222222, 0x3333333311111111]) 0 0 = true ∧
    gives 0x20000600 0 (unit (table 8 [1, 2, 3, 4]) .empty) (table 8 [1, 3, 2, 4]) 0 0 = true := by decide

/-- V42.20, V42.23, V42.26: one of each regime. -/
theorem test_swapi : gives 0x21000005 0 (unit (table 6 [0x0123456789ABCDEF]) .empty) (table 6 [0x447744770303CFCF]) 0 0 = true ∧
    gives 0x21000601 0 (unit (.live table7) .empty) (table 7 [0xC963C963C963C963, 0xCCCC999966663333]) 0 0 = true ∧
    gives 0x21000607 0 (unit (table 8 [1, 2, 3, 4]) .empty) (table 8 [1, 3, 2, 4]) 0 0 = true := by decide

/-- V42.38, V42.42. -/
theorem test_flipi : gives 0x22000300 0 (unit (table 6 [0x0123456789ABCDEF]) .empty) (table 6 [0x23016745AB89EFCD]) 0 0 = true ∧
    gives 0x22000700 0 (unit (table 8 [1, 2, 3, 4]) .empty) (table 8 [3, 4, 1, 2]) 0 0 = true := by decide

/-- V43.13, V43.17. -/
theorem test_minbasei : gives 0x30000000 0 (unitSup (table 4 [0xCC00]) [7]) (table 4 [0x8888]) 2 0x200 = true ∧
    runs 0x30000000 0 (unitSup (table 7 [0, 0xAAAAAAAAAAAAAAAA]) [7])
      (fun t => t.slot 0 == table 7 [0x8888888888888888, 0x8888888888888888] && t.sup == [0, 6]) = true := by decide

/-- V43.24, V43.27. -/
theorem test_expandi : gives 0x31000000 0 (unitSup (table 3 [0xCA]) [2, 0]) (table 3 [0xE4]) 0 0x200 = true ∧
    gives 0x31000000 0 (unitSup (table 2 [0x8]) [0, 1, 1]) (table 2 [0x8]) 0 0x3100000000000352 = true := by decide

/-- V44.2 and V44.15 with the slots exchanged. -/
theorem test_extfill : gives 0x40010000 0 (unit (table 7 [0x5555555555555555, 0x5555555555555555]) (table 2 [0x8]))
      (table 7 [0x8888888888888888, 0x8888888888888888]) 0 0 = true ∧
    gives 0x40010000 0 (unit (table 1 [0]) (table 2 [0x8])) (table 1 [0]) 0 0x4001000000000062 = true := by decide

/-- V45.5, V45.10. -/
theorem test_nexti : gives 0x50000000 0 (unit (table 5 [0xFFFFFFFF]) .empty) (table 5 [0]) 0 0 = true ∧
    gives 0x50000000 0 (unit (table 8 [0xFFFFFFFFFFFFFFFF, 0xFFFFFFFFFFFFFFFF, 7, 0]) .empty) (table 8 [0, 0, 8, 0]) 0 0 = true := by
  decide

/-- V45.28, V45.15. -/
theorem test_shli : gives 0x51000000 63 (unit (.live table7) .empty) (table 7 [0x8000000000000000, 0x0091A2B3C4D5E6F7]) 0 0 = true ∧
    gives 0x51000000 7 (unit (table 3 [0xA1]) .empty) (table 3 [0x80]) 0 0 = true := by decide

/-! ### Witnesses: concrete states and operands that meet a statement's hypotheses -/

theorem witness_LegalWordIsTheEncoding : decode 0x03100000 = .ok (.copy 1 0) := by decide

theorem witness_UndefinedOpcodeFaults :
    (presenting 0x0B000000 0 State.reset).cfg.valid = true ∧ (presenting 0x0B000000 0 State.reset).f = false ∧
    (presenting 0x0B000000 0 State.reset).pending = .command { cw := 0x0B000000, wdata := 0 } :: [] ∧
    (opField 0x0B000000).toNat ∉ definedOps := by decide

theorem witness_ReservedFieldFaults :
    (presenting 0x06000001 0 State.reset).cfg.valid = true ∧ (presenting 0x06000001 0 State.reset).f = false ∧
    (presenting 0x06000001 0 State.reset).pending = .command { cw := 0x06000001, wdata := 0 } :: [] ∧
    opField 0x06000001 = Opcode.rdstat.code ∧ encode (Opcode.rdstat.read 0x06000001) ≠ 0x06000001 := by decide

theorem witness_MissingSlotFaults :
    State.reset.f = false ∧ (Instr.hasvar 4 0).dField? = some 4 ∧ State.reset.cfg.nt ≤ (4 : SlotNo).toNat ∧
    (Instr.copy 0 15).sField? = some 15 ∧ State.reset.cfg.nt ≤ (15 : SlotNo).toNat := by decide

theorem witness_StepRunsTheDecodedCommand :
    (presenting 0x06000000 0 State.reset).cfg.valid = true ∧
    (presenting 0x06000000 0 State.reset).pending = .command { cw := 0x06000000, wdata := 0 } :: [] ∧
    decode 0x06000000 = .ok .rdstat ∧
    exec .rdstat { presenting 0x06000000 0 State.reset with cmd := { cw := 0x06000000, wdata := 0 }, pending := [] } =
      .next { State.reset with cmd := { cw := 0x06000000, wdata := 0 } } :=
  ⟨by decide, rfl, by decide, rfl⟩

theorem witness_StepWithoutCommand :
    (State.reset.cfg.valid = true ∧ State.reset.pending = []) ∧ (State.resetWith (Config.mk 23 4 [])).cfg.valid = false := by decide

theorem witness_EveryStepAnswers : State.reset.cfg.valid = true := by decide

/-- A unit that has faulted. -/
def faultedUnit : State := { State.reset with f := true, cause := .varRange, fcw := 0x10000200 }

theorem witness_FaultedUnitIgnores :
    (presenting 0x06000000 0 faultedUnit).cfg.valid = true ∧ (presenting 0x06000000 0 faultedUnit).f = true ∧
    (presenting 0x06000000 0 faultedUnit).pending = .command { cw := 0x06000000, wdata := 0 } :: [] ∧
    (presenting 0x06000001 0 faultedUnit).pending = .command { cw := 0x06000001, wdata := 0 } :: [] ∧
    (0x06000001 : CmdWord) ≠ 0x06000000 := by decide

theorem witness_FaultedStateIsAbsorbing :
    (presenting 0x01000300 0 faultedUnit).f = true ∧ Event.reset ∉ (presenting 0x01000300 0 faultedUnit).pending ∧
    runSteps 1 (presenting 0x01000300 0 faultedUnit) =
      .next { onPort 0x01000300 0 faultedUnit with pending := [], rdata := 0, outputs := [0] } :=
  ⟨by decide, by decide, rfl⟩

theorem witness_FaultEntryIsExact :
    State.reset.f = false ∧ exec (.rdnv 0) State.reset = .next (faulted .slotEmpty State.reset) ∧
    (faulted .slotEmpty State.reset).f = true := ⟨by decide, rfl, by decide⟩

theorem witness_CausesOfEachCommand :
    State.reset.f = false ∧ exec (.copy 0 15) State.reset = .next (faulted .illegalCmd State.reset) ∧
    (faulted .illegalCmd State.reset).f = true := ⟨by decide, rfl, by decide⟩

theorem witness_TableContentNeverFaults :
    SameShape (unit (table 3 [0xA0]) .empty) (unit (table 3 [0xCA]) .empty) ∧
    exec (.flipi 0 3) (unit (table 3 [0xA0]) .empty) = .next (faulted .varRange (unit (table 3 [0xA0]) .empty)) ∧
    exec (.flipi 0 3) (unit (table 3 [0xCA]) .empty) = .next (faulted .varRange (unit (table 3 [0xCA]) .empty)) := by
  refine ⟨⟨rfl, rfl, rfl, rfl, rfl, rfl, fun d => ?_⟩, rfl, rfl⟩
  by_cases h : d = 0
  · subst h
    exact .inr ⟨_, _, rfl, rfl, rfl⟩
  · left
    revert d
    decide

theorem witness_ResetClearsTheUnit :
    ({ faultedUnit with pending := [.reset] } : State).cfg.valid = true ∧
    ({ faultedUnit with pending := [.reset] } : State).pending = .reset :: [] := by decide

theorem witness_ResetMeetsTheInvariant : Config.standard.valid = true := by decide

theorem witness_StepKeepsTheInvariant :
    (presenting 0x50000000 0 (unit (.live tableA0) .empty)).Inv = true ∧
    step (presenting 0x50000000 0 (unit (.live tableA0) .empty)) =
      .next { onPort 0x50000000 0 (unit (table 3 [0xA1]) .empty) with outputs := [0] } := ⟨by decide, rfl⟩

/-- Both clauses: an empty slot that CREATE fills, and a live one that DESTROY empties. -/
theorem witness_SlotStateMachine :
    State.reset.Inv = true ∧ State.reset.slot 0 = .empty ∧ exec (.create 0 0) State.reset = .next (unit (table 0 [0]) .empty) ∧
    (unit (.live tableA0) .empty).Inv = true ∧ (unit (.live tableA0) .empty).slot 0 = .live tableA0 ∧
    exec (.destroy 0) (unit (.live tableA0) .empty) = .next State.reset :=
  ⟨by decide, by decide, rfl, by decide, rfl, rfl⟩

theorem witness_ExclusiveOwnership :
    exec (.copy 1 0) (unit (.live tableA0) .empty) = .next (unit (.live tableA0) (.live tableA0)) ∧
    (Instr.copy 1 0).dField? ≠ some 0 := ⟨rfl, by decide⟩

theorem witness_WhoWritesTheFlags :
    exec .supclr (unitSup .empty [1]) = .next State.reset ∧ (∀ d v, Instr.supclr ≠ .hasvar d v) ∧
    exec (.hasvar 0 2) (unit (.live tableA0) .empty) = .next { unit (.live tableA0) .empty with r := true, rdata := 1 } ∧
    (∀ d, Instr.hasvar 0 2 ≠ .minbasei d) ∧ Instr.hasvar 0 2 ≠ .supclr ∧ ∀ v, Instr.hasvar 0 2 ≠ .suppush v :=
  ⟨rfl, by simp, rfl, by simp, by simp, by simp⟩

theorem witness_CreateMakesTheZeroTable :
    ready (.create 0 8) State.reset = true ∧ State.reset.slot 0 = .empty ∧ (8 : SmallOp).toNat ≤ State.reset.cfg.nmax ∧
    State.reset.cfg.fixedArity 0 = none ∧
    ready (.create 2 4) (State.resetWith (Config.mk 8 4 [none, none, some 4])) = true ∧
    (Config.mk 8 4 [none, none, some 4]).fixedArity 2 = some (4 : SmallOp).toNat := by decide

theorem witness_DestroyEmptiesTheSlot :
    ready (.destroy 0) (unit (.live tableA0) .empty) = true ∧ (unit (.live tableA0) .empty).slot 0 = .live tableA0 := by decide

theorem witness_CopyClonesTheTable :
    ready (.copy 1 0) (unit (.live tableA0) .empty) = true ∧ (unit (.live tableA0) .empty).slot 0 = .live tableA0 ∧
    (unit (.live tableA0) .empty).slot 1 = .empty ∧ (unit (.live tableA0) .empty).cfg.fixedArity 1 = none := by decide

/-- The highest block index of a table of seven variables. -/
theorem witness_RdblkAnswersTheBlock :
    ready (.rdblk 0 1) (unit (.live table7) .empty) = true ∧ (unit (.live table7) .empty).slot 0 = .live table7 ∧
    (1 : BlockIdx).toNat < NB table7.n := by decide

theorem witness_WrblkStoresTheMaskedBlock :
    ready (.wrblk 0 1) (onPort 0x05000001 7 (unit (.live table7) .empty)) = true ∧
    (onPort 0x05000001 7 (unit (.live table7) .empty)).slot 0 = .live table7 ∧ (1 : BlockIdx).toNat < NB table7.n := by decide

theorem witness_RdnvAnswersTheArity :
    ready (.rdnv 0) (unit (.live tableA0) .empty) = true ∧ (unit (.live tableA0) .empty).slot 0 = .live tableA0 := by decide

theorem witness_SupclrEmptiesTheList : ready .supclr (unitSup .empty [1, 2]) = true := by decide

theorem witness_SuppushAppendsTheEntry :
    ready (.suppush 255) (unitSup .empty [0, 1, 2, 3, 4, 5, 6]) = true ∧
    (unitSup .empty [0, 1, 2, 3, 4, 5, 6]).suplen < (unitSup .empty [0, 1, 2, 3, 4, 5, 6]).cfg.nmax := by decide

theorem witness_RdsupAnswersTheEntry :
    ready (.rdsup 1) (unitSup .empty [0, 2]) = true ∧ (unitSup .empty [0, 2]).sup[(1 : SmallOp).toNat]? = some 2 := by decide

/-- The cofactor commands, at the highest in-word variable and at the block variable of a table of seven variables. -/
theorem witness_HasvarTestsDependence :
    ready (.hasvar 0 5) (unit (.live table7) .empty) = true ∧ ready (.hasvar 0 6) (unit (.live table7) .empty) = true ∧
    (unit (.live table7) .empty).slot 0 = .live table7 ∧ (5 : SmallOp).toNat < table7.n ∧ (6 : SmallOp).toNat < table7.n := by
  decide

theorem witness_CofZeroTakesTheCofactor :
    ready (.cof0i 0 5) (unit (.live table7) .empty) = true ∧ ready (.cof0i 0 6) (unit (.live table7) .empty) = true ∧
    (unit (.live table7) .empty).slot 0 = .live table7 ∧ (5 : SmallOp).toNat < table7.n ∧ (6 : SmallOp).toNat < table7.n := by
  decide

theorem witness_CofOneTakesTheCofactor :
    ready (.cof1i 0 5) (unit (.live table7) .empty) = true ∧ ready (.cof1i 0 6) (unit (.live table7) .empty) = true ∧
    (unit (.live table7) .empty).slot 0 = .live table7 ∧ (5 : SmallOp).toNat < table7.n ∧ (6 : SmallOp).toNat < table7.n := by
  decide

theorem witness_CofactorLaws :
    table7.wf = true ∧ 6 < table7.n ∧ 0 < table7.n ∧ 0 ≠ 6 ∧ (table7.cof0 6).hasVar 0 = true ∧ (table7.cof1 6).hasVar 0 = true := by
  decide

theorem witness_SwapadjiExchangesNeighbours :
    ready (.swapadji 0 5) (unit (.live table7) .empty) = true ∧ (unit (.live table7) .empty).slot 0 = .live table7 ∧
    (5 : SmallOp).toNat + 1 < table7.n := by decide

theorem witness_SwapiExchangesVariables :
    ready (.swapi 0 6 0) (unit (.live table7) .empty) = true ∧ (unit (.live table7) .empty).slot 0 = .live table7 ∧
    (6 : SmallOp).toNat < table7.n ∧ (0 : SmallOp).toNat < table7.n := by decide

theorem witness_FlipiNegatesTheInput :
    ready (.flipi 0 6) (unit (.live table7) .empty) = true ∧ (unit (.live table7) .empty).slot 0 = .live table7 ∧
    (6 : SmallOp).toNat < table7.n := by decide

theorem witness_PermutationLaws : table7.wf = true ∧ 5 + 1 < table7.n ∧ 0 < table7.n ∧ 3 < table7.n ∧ 3 ≠ 5 ∧ 3 ≠ 0 := by
  decide

/-- Position 1 of the minimised table plays the role of variable 2: `k = 2` and `k' = 4` correspond. -/
theorem witness_MinbaseiMinimisesTheSupport :
    ready (.minbasei 0) (unit (.live tableA0) .empty) = true ∧ (unit (.live tableA0) .empty).slot 0 = .live tableA0 ∧
    tableA0.minBase.2 = [0, 2] ∧ 2 < LEN 3 ∧ 4 < LEN 3 ∧
    ∀ e ∈ ([0, 2] : List SupEntry).zipIdx, (4 : Nat).testBit e.1.toNat = (2 : Nat).testBit e.2 := by decide

/-- The longest list that is legal for a table of three variables, with the highest variable in it. -/
theorem witness_ExpandiPerformsTheSwaps :
    ready (.expandi 0) (unitSup (.live tableA0) [2, 0, 1]) = true ∧ (unitSup (.live tableA0) [2, 0, 1]).slot 0 = .live tableA0 ∧
    (unitSup (.live tableA0) [2, 0, 1]).suplen ≤ tableA0.n ∧ ∀ v ∈ (unitSup (.live tableA0) [2, 0, 1]).sup, v.toNat < tableA0.n := by
  decide

theorem witness_ExpandiUndoesMinbasei :
    ready (.minbasei 0) (unit (.live tableA0) .empty) = true ∧ (unit (.live tableA0) .empty).slot 0 = .live tableA0 ∧
    exec (.minbasei 0) (unit (.live tableA0) .empty) = .next { unitSup (table 3 [0x88]) [0, 2] with rdata := 2 } :=
  ⟨by decide, rfl, rfl⟩

/-- Two slots, and one slot that is its own source. -/
theorem witness_ExtfillReplicatesTheSource :
    ready (.extfill 0 1) (unit (.live table7) (.live tableA0)) = true ∧ (unit (.live table7) (.live tableA0)).slot 0 = .live table7 ∧
    (unit (.live table7) (.live tableA0)).slot 1 = .live tableA0 ∧ tableA0.n ≤ table7.n ∧
    ready (.extfill 0 0) (unit (.live table7) .empty) = true := by decide

theorem witness_ExtensionLaws : tableA0.wf = true ∧ tableA0.n ≤ 6 ∧ 6 ≤ 7 ∧ tableA0.n ≤ 3 ∧ 3 < 6 ∧ 63 < LEN 6 := by decide

theorem witness_ValueAndTableInverse : table7.wf = true ∧ 255 < 2 ^ LEN 3 := by decide

theorem witness_NextiAddsOne :
    ready (.nexti 0) (unit (table 3 [0xFF]) .empty) = true ∧ (unit (table 3 [0xFF]) .empty).slot 0 = table 3 [0xFF] := by decide

theorem witness_NextiEnumerates :
    ready (.nexti 0) (unit (.live (Table.zero 2)) .empty) = true ∧ (unit (.live (Table.zero 2)) .empty).slot 0 = .live (Table.zero 2) ∧
    16 = 2 ^ LEN 2 := by decide

/-- The largest shift amount. -/
theorem witness_ShliShiftsTheVector :
    ready (.shli 0) (onPort 0x51000000 0xFFFFFFFFFFFFFFFF (unit (.live table7) .empty)) = true ∧
    (onPort 0x51000000 0xFFFFFFFFFFFFFFFF (unit (.live table7) .empty)).slot 0 = .live table7 ∧
    ready (.shli 0) (unit (.live table7) .empty) = true := by decide

theorem witness_ShiftLaws : table7.wf = true ∧ LEN table7.n ≤ 128 := by decide

/-- For EXTFILL, the destination empty, and the source empty. -/
theorem witness_EmptySlotFaults :
    State.reset.f = false ∧ (Instr.extfill 1 0).wf State.reset.cfg = true ∧ 1 ∈ needsLive (.extfill 1 0) ∧ State.reset.slot 1 = .empty ∧
    0 ∈ needsLive (.extfill 1 0) ∧ State.reset.slot 0 = .empty := by decide

theorem witness_LiveSlotFaults :
    (unit (.live tableA0) (.live table7)).f = false ∧ (unit (.live tableA0) (.live table7)).slot 0 = .live tableA0 ∧
    (Instr.create 0 3).wf (unit (.live tableA0) (.live table7)).cfg = true ∧
    (Instr.copy 0 1).wf (unit (.live tableA0) (.live table7)).cfg = true ∧
    (unit (.live tableA0) (.live table7)).slot 1 = .live table7 := by decide

/-- A unit whose slot 1 has the fixed arity 4. -/
def fixedUnit : State := { State.resetWith (Config.mk 8 4 [none, some 4]) with slots := [.live tableA0, .empty, .empty, .empty] }

/-- CREATE above `NMAX`, CREATE of the arity next to a fixed one, and COPY of another arity into a fixed-arity slot. -/
theorem witness_ArityFaults :
    State.reset.f = false ∧ State.reset.slot 1 = .empty ∧ (Instr.create 1 9).wf State.reset.cfg = true ∧
    State.reset.cfg.nmax < (9 : SmallOp).toNat ∧
    fixedUnit.f = false ∧ fixedUnit.slot 1 = .empty ∧ (Instr.create 1 5).wf fixedUnit.cfg = true ∧
    fixedUnit.cfg.fixedArity 1 = some 4 ∧ (5 : SmallOp).toNat ≠ 4 ∧
    (Instr.copy 1 0).wf fixedUnit.cfg = true ∧ fixedUnit.slot 0 = .live tableA0 ∧ tableA0.n ≠ 4 := by decide

/-- The first block index out of range. -/
theorem witness_BlockRangeFaults :
    (unit (.live table7) .empty).f = false ∧ (0 : SlotNo).toNat < (unit (.live table7) .empty).cfg.nt ∧
    (unit (.live table7) .empty).slot 0 = .live table7 ∧ NB table7.n ≤ (2 : BlockIdx).toNat := by decide

/-- The first index out of range of every clause, and a list that is too long or names the first index out of range. -/
theorem witness_VariableRangeFaults :
    (unitSup (.live tableA0) [3]).f = false ∧ (0 : SlotNo).toNat < (unitSup (.live tableA0) [3]).cfg.nt ∧
    (unitSup (.live tableA0) [3]).slot 0 = .live tableA0 ∧ tableA0.n ≤ (3 : SmallOp).toNat ∧ tableA0.n ≤ (2 : SmallOp).toNat + 1 ∧
    (∃ v ∈ (unitSup (.live tableA0) [3]).sup, tableA0.n ≤ v.toNat) ∧
    (unitSup (.live tableA0) [0, 0, 0, 0]).slot 0 = .live tableA0 ∧ tableA0.n < (unitSup (.live tableA0) [0, 0, 0, 0]).suplen := by
  decide

theorem witness_ExtendRangeFaults :
    (unit (.live tableA0) (.live table7)).f = false ∧ (Instr.extfill 0 1).wf (unit (.live tableA0) (.live table7)).cfg = true ∧
    (unit (.live tableA0) (.live table7)).slot 0 = .live tableA0 ∧ (unit (.live tableA0) (.live table7)).slot 1 = .live table7 ∧
    tableA0.n < table7.n := by decide

/-- A full list, and the first position past a list. -/
theorem witness_SupportRangeFaults :
    (unitSup .empty [0, 1, 2, 3, 4, 5, 6, 7]).f = false ∧
    (unitSup .empty [0, 1, 2, 3, 4, 5, 6, 7]).suplen = (unitSup .empty [0, 1, 2, 3, 4, 5, 6, 7]).cfg.nmax ∧
    (unitSup .empty [0, 2]).f = false ∧ (unitSup .empty [0, 2]).suplen ≤ (2 : SmallOp).toNat := by decide

/-- The state in which the host presents the two commands of a pure cofactor. -/
def pureState : State := { unit (.live tableA0) .empty with pending := expandPseudo (.cof0 1 0 2) }

theorem witness_PseudoKeepsTheSource :
    pureState.pending = expandPseudo (.cof0 1 0 2) ∧ (0 : SlotNo) ≠ pseudoDest (.cof0 1 0 2) ∧
    runSteps 2 pureState = .next { onPort 0x11100200 0 (unit (.live tableA0) (table 3 [0])) with outputs := [0, 0] } :=
  ⟨rfl, by decide, rfl⟩

theorem witness_PureCofactorCopiesFirst :
    ready (.copy 1 0) pureState = true ∧ pureState.slot 0 = .live tableA0 ∧ pureState.slot 1 = .empty ∧
    pureState.cfg.fixedArity 1 = none ∧ (2 : SmallOp).toNat < tableA0.n ∧ pureState.pending = expandPseudo (.cof0 1 0 2) := by
  decide

end Sys2Proof.Tests
end

section
/-! The state after reset (`spec/10_state.md` R46): what each field of `State.resetWith c` reads as, and that `STATUS` is 0
whenever the flags, the fault record and the support list are clear. -/

namespace Sys2Proof.Machine

@[simp] theorem resetWith_cfg (c : Config) : (State.resetWith c).cfg = c := rfl
@[simp] theorem resetWith_slots (c : Config) : (State.resetWith c).slots = List.replicate c.nt .empty := rfl
@[simp] theorem resetWith_r (c : Config) : (State.resetWith c).r = false := rfl
@[simp] theorem resetWith_f (c : Config) : (State.resetWith c).f = false := rfl
@[simp] theorem resetWith_cause (c : Config) : (State.resetWith c).cause = .none := rfl
@[simp] theorem resetWith_fcw (c : Config) : (State.resetWith c).fcw = 0 := rfl
@[simp] theorem resetWith_sup (c : Config) : (State.resetWith c).sup = [] := rfl
@[simp] theorem resetWith_suplen (c : Config) : (State.resetWith c).suplen = 0 := rfl

/-- A slot number past `NT` reads `EMPTY` as well, so no bound on `d` is needed. -/
@[simp] theorem resetWith_slot (c : Config) (d : SlotNo) : (State.resetWith c).slot d = .empty := by
  rw [State.slot, resetWith_slots, List.getD_eq_getElem?_getD]
  exact List.getElem?_getD_replicate_default_eq ..

/-- `STATUS` holds nothing but the flags, the fault record and `SUPLEN` (R39). -/
theorem status_eq_zero_of_clear {s : State} (hr : s.r = false) (hf : s.f = false) (hcause : s.cause = .none) (hfcw : s.fcw = 0)
    (hlen : s.suplen = 0) : s.status = 0 := by
  rw [State.status, hr, hf, hcause, hfcw, hlen]
  rfl

theorem resetWith_status (c : Config) : (State.resetWith c).status = 0 :=
  status_eq_zero_of_clear (resetWith_r c) (resetWith_f c) (resetWith_cause c) (resetWith_fcw c) (resetWith_suplen c)

/-- Settles O18: each value of R46 is read off its field; the slots and `STATUS` have lemmas of their own. -/
theorem resetValues : Obligations.ResetValues := by
  intro c
  have hslots : (State.resetWith c).slots.length = c.nt := List.length_replicate
  have hcause : (State.resetWith c).cause.code = 0 := rfl
  exact ⟨resetWith_slot c, hslots, resetWith_r c, resetWith_f c, hcause, resetWith_fcw c, resetWith_suplen c, resetWith_status c⟩

end Sys2Proof.Machine
end

section
/-! The command word as a number (`spec/30_encoding.md` R81, R82, R91): each field at its place value. -/

namespace Sys2Proof

/-- A field appended below a word adds to the word shifted past it. -/
theorem toNat_append_eq_add {m n : Nat} (x : BitVec m) (y : BitVec n) : (x ++ y).toNat = x.toNat * 2 ^ n + y.toNat := by
  rw [BitVec.toNat_append, ← Nat.shiftLeft_add_eq_or_of_lt y.isLt, Nat.shiftLeft_eq]

/-- The place values of the fields of format V (R81). -/
theorem packV_toNat (op : BitVec 8) (d s : SlotNo) (a b : SmallOp) :
    (packV op d s a b).toNat = op.toNat * 2 ^ 24 + d.toNat * 2 ^ 20 + s.toNat * 2 ^ 16 + a.toNat * 2 ^ 8 + b.toNat := by
  simp only [packV, toNat_append_eq_add]
  ring

/-- The place values of the fields of format X (R82). -/
theorem packX_toNat (op : BitVec 8) (d s : SlotNo) (idx : BlockIdx) :
    (packX op d s idx).toNat = op.toNat * 2 ^ 24 + d.toNat * 2 ^ 20 + s.toNat * 2 ^ 16 + idx.toNat := by
  simp only [packX, toNat_append_eq_add]
  ring

/-- Settles O5: every arm of the encoder packs one of the two formats, so its number is the sum of the place values, in which
the opcode's is a numeral and the unused fields contribute 0. -/
theorem commandWordValues : Obligations.CommandWordValues := by
  intro d s a b idx
  simp only [encode, packV_toNat, packX_toNat]
  simp

end Sys2Proof
end

section
/-! The common checks seen from `exec` (`spec/30_encoding.md` R86; `spec/40_store_access.md` R100): which slots a command
names, that every command but RDSTAT is a `perform` of them, and what `perform` does when one of them does not exist. -/

namespace Sys2Proof.Machine

/-- The slots that the used `d` and `s` fields of a command name, in that order (R84, R86). -/
def namedSlots (i : Instr) : List SlotNo := i.dField?.toList ++ i.sField?.toList

theorem mem_namedSlots (i : Instr) (d : SlotNo) : d ∈ namedSlots i ↔ i.dField? = some d ∨ i.sField? = some d := by
  rw [namedSlots, List.mem_append, Option.mem_toList, Option.mem_toList]

/-- RDSTAT is the exception of R243: it has no check and is performed in the faulted state too. -/
theorem exec_eq_perform {i : Instr} (hi : i ≠ .rdstat) (s : State) : ∃ k, exec i s = perform (namedSlots i) s k := by
  cases i with
  | rdstat => exact absurd rfl hi
  | _ => exact ⟨_, rfl⟩

theorem raise_eq_faulted (c : Cause) (s : State) : raise c s = faulted c s := rfl

/-- With no fault recorded, one missing slot among those named is enough, whatever the command's own rule `k` says (R241). -/
theorem perform_missing {ds : List SlotNo} {s : State} (hf : s.f = false) {d : SlotNo} (hd : d ∈ ds) (hnt : s.cfg.nt ≤ d.toNat)
    (k : State) : perform ds s k = .next (faulted .illegalCmd s) := by
  obtain ⟨hf', -⟩ | ⟨-, -, ht⟩ | ⟨-, hall, -⟩ := perform_cases (ds := ds) (s := s) (k := k) rfl
  · rw [hf] at hf'
    contradiction
  · exact congrArg _ ht
  · exact absurd (hall d hd) (by omega)

/-- Settles O8: the command that names the missing slot is not RDSTAT, so it is a `perform` of a list that holds the slot. -/
theorem missingSlotFaults : Obligations.MissingSlotFaults := by
  intro i s d hf hfield hnt
  have hi : i ≠ .rdstat := by
    rintro rfl
    obtain h | h := hfield <;> cases h
  obtain ⟨k, hk⟩ := exec_eq_perform hi s
  rw [hk]
  exact perform_missing hf ((mem_namedSlots i d).2 hfield) hnt k

end Sys2Proof.Machine
end

section
/-! The commands that rewrite the table of one slot (`spec/10_state.md` R45, `spec/40_store_access.md` R100): what `ready` gives
a command, and what such a command does when its checks pass. -/

namespace Sys2Proof.Machine

theorem slotSame_of_slot {e : SlotNo} {s t : State} (h : t.slot e = s.slot e) : SlotSame e s t :=
  ⟨h, memRead_of_slot h, fun b _ => congrArg _ (memRead_of_slot h b)⟩

theorem wroteSlotOnly_setTable (s : State) (d : SlotNo) (t : Table) : WroteSlotOnly d s (answer 0 (s.setTable d t)) :=
  ⟨rfl, rfl, rfl, ⟨rfl, rfl, rfl, rfl, rfl, rfl, rfl⟩, fun _ he => slotSame_of_slot (slot_setTable_other s he t)⟩

theorem ready_iff (i : Instr) (s : State) : ready i s = true ↔ s.Inv = true ∧ s.f = false ∧ i.wf s.cfg = true := by
  simp only [ready, Bool.and_eq_true, Bool.not_eq_true', and_assoc]

theorem inv_iff (s : State) :
    s.Inv = true ↔ s.cfg.valid = true ∧ Memory.wf s.cfg s.slots = true ∧ s.suplen ≤ s.cfg.supcap ∧ s.recordOk = true := by
  simp only [State.Inv, Bool.and_eq_true, decide_eq_true_eq, and_assoc]

/-- R86 in terms of the slots that the command names. -/
theorem instr_wf_iff (c : Config) (i : Instr) : i.wf c = true ↔ ∀ d ∈ namedSlots i, d.toNat < c.nt := by
  simp only [Instr.wf, Instr.dFieldOk, Instr.sFieldOk, Bool.and_eq_true, Option.all_eq_true, decide_eq_true_eq, mem_namedSlots,
    or_imp, forall_and]

theorem table_wf_of_ready {i : Instr} {s : State} (h : ready i s = true) {d : SlotNo} {t : Table} (hlive : s.slot d = .live t) :
    t.wf = true := by
  obtain ⟨hinv, -, -⟩ := (ready_iff i s).1 h
  obtain ⟨-, hmem, -, -⟩ := (inv_iff s).1 hinv
  exact (Memory.wf_slot hmem hlive).1

/-- The two common checks pass in a state that is ready for the command. -/
theorem perform_ready {i : Instr} {s : State} (h : ready i s = true) (k : State) : perform (namedSlots i) s k = .next k := by
  obtain ⟨-, hf, hwf⟩ := (ready_iff i s).1 h
  exact perform_ok hf ((instr_wf_iff s.cfg i).1 hwf) k

/-- One rule for every command that, after one check `ok` of its live table, replaces it by `f` of it. -/
theorem rewrite_of_ready {i : Instr} {s : State} {d : SlotNo} {tb : Table} {ok : Table → Bool} {c : Cause} {f : Table → Table}
    (hexec : exec i s = perform (namedSlots i) s (onLive d s fun t => require (ok t) c s (answer 0 (s.setTable d (f t)))))
    (hready : ready i s = true) (hlive : s.slot d = .live tb) (hok : ok tb = true) :
    ∃ t, exec i s = .next t ∧ t.slot d = .live (f tb) ∧ WroteSlotOnly d s t := by
  refine ⟨answer 0 (s.setTable d (f tb)), ?_, ?_, wroteSlotOnly_setTable s d (f tb)⟩
  · rw [hexec, perform_ready hready, onLive_live hlive, hok, require_true]
  · rw [answer_slot, slot_setTable_same (lt_length_of_live hlive)]

end Sys2Proof.Machine
end

section
/-! The cofactor commands (`spec/41_cofactor.md` R134 to R139): `exec` as a checked rewrite by the engine's table function. -/

namespace Sys2Proof.Machine

theorem exec_cof0i (d : SlotNo) (v : SmallOp) (s : State) :
    exec (.cof0i d v) s = perform (namedSlots (.cof0i d v)) s
      (onLive d s fun t => require (decide (v.toNat < t.n)) .varRange s (answer 0 (s.setTable d (t.cof0 v.toNat)))) := rfl

theorem exec_cof1i (d : SlotNo) (v : SmallOp) (s : State) :
    exec (.cof1i d v) s = perform (namedSlots (.cof1i d v)) s
      (onLive d s fun t => require (decide (v.toNat < t.n)) .varRange s (answer 0 (s.setTable d (t.cof1 v.toNat)))) := rfl

/-- Settles O35: the command's table is `Table.cof0`, which `Table.cof0_isCof0` compares with R135 in both regimes. -/
theorem cofZeroTakesTheCofactor : Obligations.CofZeroTakesTheCofactor := by
  intro s d v tb hready hlive hv
  obtain ⟨t, hexec, hslot, hframe⟩ := rewrite_of_ready (exec_cof0i d v s) hready hlive (decide_eq_true hv)
  exact ⟨t, _, hexec, hslot, Table.cof0_isCof0 (table_wf_of_ready hready hlive) hv, hframe⟩

/-- Settles O36: the command's table is `Table.cof1`, which `Table.cof1_isCof1` compares with R138 in both regimes. -/
theorem cofOneTakesTheCofactor : Obligations.CofOneTakesTheCofactor := by
  intro s d v tb hready hlive hv
  obtain ⟨t, hexec, hslot, hframe⟩ := rewrite_of_ready (exec_cof1i d v s) hready hlive (decide_eq_true hv)
  exact ⟨t, _, hexec, hslot, Table.cof1_isCof1 (table_wf_of_ready hready hlive) hv, hframe⟩

end Sys2Proof.Machine
end

section
/-! The laws of R140 (`spec/41_cofactor.md`). Each is a fact about the index maps, carried over to tables: the first group says
how clearing, setting and flipping a bit of an index compose, the second what a table read through an index map inherits. -/

namespace Sys2Proof.Machine

/-! ### Index maps composed -/

theorem idxClear_idxClear (k i : Nat) : idxClear (idxClear k i) i = idxClear k i :=
  Nat.eq_of_testBit_eq fun m => by simp only [testBit_idxClear, Bool.and_assoc, Bool.and_self]

theorem idxSet_idxSet (k i : Nat) : idxSet (idxSet k i) i = idxSet k i :=
  Nat.eq_of_testBit_eq fun m => by simp only [testBit_idxSet, Bool.or_assoc, Bool.or_self]

theorem idxClear_idxFlip (k i : Nat) : idxClear (idxFlip k i) i = idxClear k i :=
  Nat.eq_of_testBit_eq fun m => by
    rw [testBit_idxClear, testBit_idxFlip, testBit_idxClear]
    by_cases hm : m = i <;> simp [hm]

theorem idxSet_idxFlip (k i : Nat) : idxSet (idxFlip k i) i = idxSet k i :=
  Nat.eq_of_testBit_eq fun m => by
    rw [testBit_idxSet, testBit_idxFlip, testBit_idxSet]
    by_cases hm : m = i <;> simp [hm]

theorem idxFlip_idxClear (k i : Nat) : idxFlip (idxClear k i) i = idxSet k i :=
  Nat.eq_of_testBit_eq fun m => by
    rw [testBit_idxFlip, testBit_idxClear, testBit_idxSet]
    by_cases hm : m = i <;> simp [hm]

theorem idxClear_idxFlip_of_ne (k : Nat) {i j : Nat} (h : j ≠ i) : idxClear (idxFlip k j) i = idxFlip (idxClear k i) j :=
  Nat.eq_of_testBit_eq fun m => by
    rw [testBit_idxClear, testBit_idxFlip, testBit_idxFlip, testBit_idxClear]
    by_cases hm : m = i <;> simp [hm, h.symm]

theorem idxSet_idxFlip_of_ne (k : Nat) {i j : Nat} (h : j ≠ i) : idxSet (idxFlip k j) i = idxFlip (idxSet k i) j :=
  Nat.eq_of_testBit_eq fun m => by
    rw [testBit_idxSet, testBit_idxFlip, testBit_idxFlip, testBit_idxSet]
    by_cases hm : m = i <;> simp [hm, h.symm]

/-! ### Tables read through an index map -/

theorem Table.isBits_self {t : Table} (h : t.wf = true) : t.IsBits t.n t.bit := ⟨rfl, h, fun _ _ => rfl⟩

theorem Table.IsBits.eq_iff {u v : Table} {n : Nat} {g g' : Nat → Bool} (hu : u.IsBits n g) (hv : v.IsBits n g') :
    u = v ↔ ∀ k, k < LEN n → g k = g' k := by
  obtain ⟨hun, huwf, hubit⟩ := hu
  obtain ⟨hvn, hvwf, hvbit⟩ := hv
  constructor
  · rintro rfl k hk
    rw [← hubit k hk, hvbit k hk]
  · intro h
    exact Table.ext_bits huwf hvwf (hun.trans hvn.symm) fun k hk => by
      rw [hun] at hk
      rw [hubit k hk, hvbit k hk, h k hk]

theorem Table.hasVar_eq_false_iff {t : Table} (h : t.wf = true) {i : Nat} (hi : i < t.n) :
    t.hasVar i = false ↔ ∀ k, k < LEN t.n → t.bit (idxFlip k i) = t.bit k := by
  rw [Bool.eq_false_iff, ne_eq, Table.hasVar_iff h hi, Table.Dep]
  push Not
  exact forall₂_congr fun _ _ => eq_comm

section
variable {t u : Table} {g : Nat → Nat} (hu : u.IsBits t.n fun k => t.bit (g k))
include hu

theorem Table.IsBits.n_eq : u.n = t.n := hu.1

theorem Table.IsBits.wf_eq_true : u.wf = true := hu.2.1

theorem Table.IsBits.bit_eq {k : Nat} (hk : k < LEN t.n) : u.bit k = t.bit (g k) := hu.2.2 k hk

/-- Reading twice through an idempotent index map is reading once. -/
theorem Table.IsBits.eq_of_idempotent {w : Table} (hw : w.IsBits u.n fun k => u.bit (g k)) (hg : Below t.n g)
    (hgg : ∀ k, g (g k) = g k) : w = u := by
  rw [hu.n_eq] at hw
  refine (Table.IsBits.eq_iff hw hu).2 fun k hk => ?_
  rw [hu.bit_eq (hg.lt k hk), hgg]

/-- An index map that ignores bit `i` gives a table without variable `i`. -/
theorem Table.IsBits.hasVar_eq_false {i : Nat} (hi : i < t.n) (hg : ∀ k, g (idxFlip k i) = g k) : u.hasVar i = false := by
  rw [Table.hasVar_eq_false_iff hu.wf_eq_true (hu.n_eq ▸ hi), hu.n_eq]
  intro k hk
  rw [hu.bit_eq ((below_idxFlip hi).lt k hk), hu.bit_eq hk, hg]

/-- An index map that passes a flip of bit `j` through gives a table with no dependence on `j` that was not there. -/
theorem Table.IsBits.hasVar_imp {j : Nat} (h : t.wf = true) (hj : j < t.n) (hg : Below t.n g)
    (hgj : ∀ k, g (idxFlip k j) = idxFlip (g k) j) (hdep : u.hasVar j = true) : t.hasVar j = true := by
  contrapose! hdep
  rw [← Bool.eq_false_iff, Table.hasVar_eq_false_iff h hj] at hdep
  rw [← Bool.eq_false_iff, Table.hasVar_eq_false_iff hu.wf_eq_true (hu.n_eq ▸ hj), hu.n_eq]
  intro k hk
  rw [hu.bit_eq ((below_idxFlip hj).lt k hk), hu.bit_eq hk, hgj, hdep _ (hg.lt k hk)]

end

/-! ### Independence seen from the cofactors and from the flip -/

section
variable {t : Table} (h : t.wf = true) {i : Nat} (hi : i < t.n)
include h hi

theorem Table.cof0_eq_cof1_iff : t.cof0 i = t.cof1 i ↔ t.hasVar i = false := by
  rw [Table.hasVar_eq_false_iff h hi, Table.IsBits.eq_iff (Table.cof0_isCof0 h hi) (Table.cof1_isCof1 h hi)]
  refine ⟨fun heq k hk => ?_, fun hflip k hk => ?_⟩
  · have hk' := heq k hk
    rw [idxClear_eq, idxSet_eq] at hk'
    rw [idxFlip_eq]
    split_ifs at hk' ⊢
    · exact hk'
    · exact hk'.symm
  · rw [← idxFlip_idxClear, hflip _ ((below_idxClear hi).lt k hk)]

theorem Table.flip_eq_self_iff : t.flip i = t ↔ t.hasVar i = false := by
  rw [Table.hasVar_eq_false_iff h hi]
  exact Table.IsBits.eq_iff (Table.flip_isFlip h hi) (Table.isBits_self h)

end

/-- Settles O37: clearing and setting bit `i` are idempotent, ignore a flip of bit `i` and pass a flip of any other bit
through; the two equivalences are `cof0_eq_cof1_iff` and `flip_eq_self_iff`. -/
theorem cofactorLaws : Obligations.CofactorLaws := by
  intro t i h hi
  have h0 := Table.cof0_isCof0 h hi
  have h1 := Table.cof1_isCof1 h hi
  have h00 := Table.cof0_isCof0 h0.wf_eq_true (h0.n_eq ▸ hi)
  have h11 := Table.cof1_isCof1 h1.wf_eq_true (h1.n_eq ▸ hi)
  have hclear := below_idxClear hi
  have hset := below_idxSet hi
  exact ⟨
    Table.IsBits.eq_of_idempotent h0 h00 hclear fun k => idxClear_idxClear k i,
    Table.IsBits.eq_of_idempotent h1 h11 hset fun k => idxSet_idxSet k i,
    Table.IsBits.hasVar_eq_false h0 hi fun k => idxClear_idxFlip k i,
    Table.IsBits.hasVar_eq_false h1 hi fun k => idxSet_idxFlip k i,
    (Table.cof0_eq_cof1_iff h hi).symm,
    (Table.flip_eq_self_iff h hi).symm,
    fun _ hj hji => Table.IsBits.hasVar_imp h0 h hj hclear fun k => idxClear_idxFlip_of_ne k hji,
    fun _ hj hji => Table.IsBits.hasVar_imp h1 h hj hset fun k => idxSet_idxFlip_of_ne k hji⟩

end Sys2Proof.Machine
end

section
/-! The permutation commands (`spec/42_permutation.md` R151 to R155): `exec` as a checked rewrite by the engine's table function. -/

namespace Sys2Proof.Machine

/-- The check is made on `v + 1` as a number, which does not wrap (R19). -/
theorem exec_swapadji (d : SlotNo) (v : SmallOp) (s : State) :
    exec (.swapadji d v) s = perform (namedSlots (.swapadji d v)) s
      (onLive d s fun t => require (decide (v.toNat + 1 < t.n)) .varRange s (answer 0 (s.setTable d (t.swapAdj v.toNat)))) := rfl

/-- Settles O38: the command's table is `Table.swapAdj`, which `Table.swapAdj_isSwap` compares with R152 in all three regimes. -/
theorem swapadjiExchangesNeighbours : Obligations.SwapadjiExchangesNeighbours := by
  intro s d v tb hready hlive hv
  obtain ⟨t, hexec, hslot, hframe⟩ := rewrite_of_ready (exec_swapadji d v s) hready hlive (decide_eq_true hv)
  exact ⟨t, _, hexec, hslot, Table.swapAdj_isSwap (table_wf_of_ready hready hlive) hv, hframe⟩

end Sys2Proof.Machine
end

section
/-! The laws of R150 and R167 (`spec/42_permutation.md`). Flipping a bit of an index and exchanging two of them are involutions
that keep an index below `LEN(n)`, so both permute the bits of a table; what such a permutation keeps is proved once for both. -/

namespace Sys2Proof.Machine

/-! ### The index maps as permutations -/

theorem idxFlip_involutive (i : Nat) : Function.Involutive fun k => idxFlip k i :=
  fun k => Nat.xor_xor_cancel_right k (2 ^ i)

/-- `XCH` moves the bits of an index by the transposition of `i` and `j` (R157). -/
theorem testBit_idxExchange_eq_swap (k i j m : Nat) : (idxExchange k i j).testBit m = k.testBit (Equiv.swap i j m) := by
  rw [testBit_idxExchange, Equiv.swap_apply_def]
  split_ifs <;> rfl

theorem idxExchange_involutive (i j : Nat) : Function.Involutive fun k => idxExchange k i j :=
  fun k => Nat.eq_of_testBit_eq fun m => by
    rw [testBit_idxExchange_eq_swap, testBit_idxExchange_eq_swap, Equiv.swap_apply_self]

theorem idxExchange_idxFlip (k i j v : Nat) :
    idxExchange (idxFlip k v) i j = idxFlip (idxExchange k i j) (Equiv.swap i j v) :=
  Nat.eq_of_testBit_eq fun m => by
    simp only [testBit_idxExchange_eq_swap, testBit_idxFlip, Equiv.swap_apply_eq_iff]

section
variable {n : Nat} {g : Nat → Nat} (hg : Below n g) (hinv : Function.Involutive g)
include hg hinv

theorem Below.forall_lt_comp_iff (p : Nat → Prop) : (∀ k, k < LEN n → p (g k)) ↔ ∀ k, k < LEN n → p k := by
  refine ⟨fun h k hk => ?_, fun h k hk => h (g k) (hg.lt k hk)⟩
  have hpk := h (g k) (hg.lt k hk)
  rwa [hinv k] at hpk

theorem Below.map_range_perm : ((List.range (LEN n)).map g).Perm (List.range (LEN n)) := by
  rw [List.perm_ext_iff_of_nodup (List.nodup_range.map hinv.injective) List.nodup_range]
  intro k
  simp only [List.mem_map, List.mem_range]
  constructor
  · rintro ⟨m, hm, rfl⟩
    exact hg.lt m hm
  · exact fun hk => ⟨g k, hg.lt k hk, hinv k⟩

end

/-! ### Tables read through a permutation of the indices -/

section
variable {t u : Table} {g : Nat → Nat} (hu : u.IsBits t.n fun k => t.bit (g k)) (hg : Below t.n g)
  (hinv : Function.Involutive g)
include hu hg hinv

/-- Reading twice through an involution gives the table back. -/
theorem Table.IsBits.eq_of_involutive {w : Table} (hw : w.IsBits u.n fun k => u.bit (g k)) (h : t.wf = true) : w = t := by
  rw [hu.n_eq] at hw
  refine (Table.IsBits.eq_iff hw (Table.isBits_self h)).2 fun k hk => ?_
  rw [hu.bit_eq (hg.lt k hk), hinv k]

/-- Where the permutation turns a flip of bit `v` into a flip of bit `w`, variable `v` has the dependence that `w` had. -/
theorem Table.IsBits.hasVar_eq {v w : Nat} (h : t.wf = true) (hv : v < t.n) (hw : w < t.n)
    (hvw : ∀ k, g (idxFlip k v) = idxFlip (g k) w) : u.hasVar v = t.hasVar w := by
  rw [Bool.eq_iff_iff, ← not_iff_not, Bool.not_eq_true, Bool.not_eq_true,
    Table.hasVar_eq_false_iff hu.wf_eq_true (hu.n_eq ▸ hv), Table.hasVar_eq_false_iff h hw, hu.n_eq,
    ← hg.forall_lt_comp_iff hinv fun k => t.bit (idxFlip k w) = t.bit k]
  refine forall₂_congr fun k hk => ?_
  rw [hu.bit_eq ((below_idxFlip hv).lt k hk), hu.bit_eq hk, hvw]

theorem Table.IsBits.ones_eq : u.ones = t.ones := by
  have hbits : (List.range (LEN t.n)).countP u.bit = (List.range (LEN t.n)).countP (t.bit ∘ g) :=
    List.countP_congr fun k hk => by rw [hu.bit_eq (List.mem_range.1 hk), Function.comp_apply]
  calc u.ones = (List.range (LEN t.n)).countP u.bit := by rw [Table.ones, hu.n_eq]
    _ = ((List.range (LEN t.n)).map g).countP t.bit := by rw [hbits, List.countP_map]
    _ = t.ones := (hg.map_range_perm hinv).countP_eq t.bit

end

/-! ### The laws, function by function -/

section
variable {t : Table} (h : t.wf = true) {i : Nat} (hi : i < t.n)
include h hi

theorem Table.flip_flip : (t.flip i).flip i = t := by
  have hf := Table.flip_isFlip h hi
  exact Table.IsBits.eq_of_involutive hf (below_idxFlip hi) (idxFlip_involutive i)
    (Table.flip_isFlip hf.wf_eq_true (hf.n_eq ▸ hi)) h

theorem Table.ones_flip : (t.flip i).ones = t.ones :=
  Table.IsBits.ones_eq (Table.flip_isFlip h hi) (below_idxFlip hi) (idxFlip_involutive i)

variable {j : Nat} (hj : j < t.n)
include hj

theorem Table.swap_swap : (t.swap i j).swap i j = t := by
  have hs := Table.swap_isSwap h hi hj
  exact Table.IsBits.eq_of_involutive hs (below_idxExchange hi hj) (idxExchange_involutive i j)
    (Table.swap_isSwap hs.wf_eq_true (hs.n_eq ▸ hi) (hs.n_eq ▸ hj)) h

theorem Table.swap_comm : t.swap i j = t.swap j i :=
  (Table.IsBits.eq_iff (Table.swap_isSwap h hi hj) (Table.swap_isSwap h hj hi)).2 fun k _ =>
    congrArg t.bit (idxExchange_comm k i j)

theorem Table.ones_swap : (t.swap i j).ones = t.ones :=
  Table.IsBits.ones_eq (Table.swap_isSwap h hi hj) (below_idxExchange hi hj) (idxExchange_involutive i j)

/-- Dependence moves with the variables: the transposition says where to look for it in the old table. -/
theorem Table.hasVar_swap {v : Nat} (hv : v < t.n) : (t.swap i j).hasVar v = t.hasVar (Equiv.swap i j v) := by
  have hsv : Equiv.swap i j v < t.n := by
    rw [Equiv.swap_apply_def]
    split_ifs <;> assumption
  exact Table.IsBits.hasVar_eq (Table.swap_isSwap h hi hj) (below_idxExchange hi hj) (idxExchange_involutive i j) h hv hsv
    fun k => idxExchange_idxFlip k i j v

end

theorem Table.swap_self (t : Table) (i : Nat) : t.swap i i = t := if_pos rfl

/-- R152 for the machine's own two functions, whose word algorithms differ. -/
theorem Table.swapAdj_eq_swap {t : Table} (h : t.wf = true) {i : Nat} (hi : i + 1 < t.n) : t.swapAdj i = t.swap i (i + 1) :=
  Table.IsBits.unique (Table.swapAdj_isSwap h hi) (Table.swap_isSwap h (by omega) hi)

theorem Table.swapAdj_swapAdj {t : Table} (h : t.wf = true) {i : Nat} (hi : i + 1 < t.n) : (t.swapAdj i).swapAdj i = t := by
  have hs := Table.swapAdj_isSwap h hi
  rw [Table.swapAdj_eq_swap hs.wf_eq_true (hs.n_eq ▸ hi), Table.swapAdj_eq_swap h hi]
  exact Table.swap_swap h (by omega) hi

/-- Settles O41: the laws of SWAP and FLIP are those of permutations of the indices, the laws of SWAPADJ follow from its
being a SWAP, and the last clause is one table of two variables. -/
theorem permutationLaws : Obligations.PermutationLaws := by
  refine ⟨fun t i j h hi hj => ?_, fun t i h hi => ⟨Table.swapAdj_eq_swap h hi, Table.swapAdj_swapAdj h hi⟩, by decide⟩
  have hleft := Table.hasVar_swap h hi hj hi
  have hright := Table.hasVar_swap h hi hj hj
  rw [Equiv.swap_apply_left] at hleft
  rw [Equiv.swap_apply_right] at hright
  have hother : ∀ v, v < t.n → v ≠ i → v ≠ j → (t.swap i j).hasVar v = t.hasVar v := fun v hv hvi hvj => by
    rw [Table.hasVar_swap h hi hj hv, Equiv.swap_apply_of_ne_of_ne hvi hvj]
  exact ⟨Table.swap_swap h hi hj, Table.flip_flip h hi, Table.swap_comm h hi hj, Table.swap_self t i,
    Table.flip_eq_self_iff h hi, hleft, hright, hother, Table.ones_swap h hi hj, Table.ones_flip h hi⟩

end Sys2Proof.Machine
end

section
/-! The round trip of support minimisation (`spec/43_support_min.md` R181, R185, R186): a turn of the scan that records an index
swaps, EXPANDI's first swap is that same swap, and a swap is an involution; so no turn changes what EXPANDI makes of the pair. -/

namespace Sys2Proof.Machine

/-! ### One turn of the scan -/

theorem minBaseTurn_of_not_hasVar {acc : Table × List SupEntry} {m : Nat} (hv : ¬ acc.1.hasVar m = true) :
    minBaseTurn acc m = acc := if_neg hv

/-- Where the position equals the index the turn makes no swap, and neither does SWAP (R158). -/
theorem minBaseTurn_of_hasVar {acc : Table × List SupEntry} {m : Nat} (hlen : acc.2.length ≤ m) (hv : acc.1.hasVar m = true) :
    minBaseTurn acc m = (acc.1.swap acc.2.length m, acc.2 ++ [BitVec.ofNat 8 m]) := by
  rw [minBaseTurn, if_pos hv]
  obtain hlt | rfl := hlen.lt_or_eq
  · rw [if_pos hlt]
  · rw [if_neg (lt_irrefl _), Table.swap_self]

/-- The entry names the index that was swapped because an index fits its 8 bits. -/
theorem minBaseTurn_expand {n m : Nat} {acc : Table × List SupEntry} (h : ScanKept n m acc) (hm : m < n) (hn : n ≤ 2 ^ 8) :
    (minBaseTurn acc m).1.expand (minBaseTurn acc m).2 = acc.1.expand acc.2 := by
  by_cases hv : acc.1.hasVar m = true
  · have hlen := h.length
    have harity := h.arity
    have hentry : (BitVec.ofNat 8 m).toNat = m := (BitVec.toNat_ofNat m 8).trans (Nat.mod_eq_of_lt (by omega))
    rw [minBaseTurn_of_hasVar hlen hv, Table.expand_concat, hentry, Table.swap_swap h.wf (by omega) (by omega)]
  · rw [minBaseTurn_of_not_hasVar hv]

/-! ### The whole scan -/

/-- Induction along MINBASEI's scan: what holds before it and passes every turn holds after it. -/
theorem Table.minBase_induction {t : Table} (h : t.wf = true) {P : Nat → Table × List SupEntry → Prop} (hstart : P 0 (t, []))
    (hturn : ∀ m acc, m < t.n → ScanKept t.n m acc → P m acc → P (m + 1) (minBaseTurn acc m)) : P t.n t.minBase := by
  suffices hs : ∀ m, m ≤ t.n → ScanKept t.n m ((List.range m).foldl minBaseTurn (t, [])) ∧
      P m ((List.range m).foldl minBaseTurn (t, [])) from (hs t.n le_rfl).2
  intro m
  induction m with
  | zero => exact fun _ => ⟨⟨h, rfl, le_rfl, by simp⟩, hstart⟩
  | succ m ih =>
    intro hm
    obtain ⟨hkept, hP⟩ := ih (by omega)
    rw [List.range_succ, List.foldl_append, List.foldl_cons, List.foldl_nil]
    exact ⟨minBaseTurn_kept hkept hm, hturn m _ hm hkept hP⟩

/-- R186 for the machine's own two functions. -/
theorem Table.minBase_expand {t : Table} (h : t.wf = true) (hn : t.n ≤ 2 ^ 8) : t.minBase.1.expand t.minBase.2 = t :=
  Table.minBase_induction h (P := fun _ acc => acc.1.expand acc.2 = t) rfl fun _ _ hm hkept hP =>
    (minBaseTurn_expand hkept hm hn).trans hP

/-- MINBASEI's list passes EXPANDI's check (R185). -/
theorem Table.minBase_expandLegal {t : Table} (h : t.wf = true) : expandLegal t.minBase.1 t.minBase.2 = true := by
  have hkept := Table.minBase_kept h
  exact (expandLegal_iff _ _).2 (hkept.arity.symm ▸ ⟨hkept.length, hkept.entries⟩)

/-! ### The two commands -/

theorem exec_minbasei_of_ready {s : State} {d : SlotNo} {t : Table} (h : ready (.minbasei d) s = true)
    (hlive : s.slot d = .live t) :
    exec (.minbasei d) s =
      .next (answer (zext64 t.minBase.2.length) ((s.setTable d t.minBase.1).setSup t.minBase.2)) :=
  (perform_ready h _).trans (congrArg _ (onLive_live hlive _))

theorem exec_expandi_of_legal {s : State} {d : SlotNo} {t : Table} (hf : s.f = false) (hd : d.toNat < s.cfg.nt)
    (hlive : s.slot d = .live t) (hlegal : expandLegal t s.sup = true) :
    ∃ s', exec (.expandi d) s = .next s' ∧ s'.slot d = .live (t.expand s.sup) ∧ s'.sup = s.sup := by
  have hchecks : exec (.expandi d) s = .next (onLive d s fun u =>
      require (expandLegal u s.sup) .varRange s (answer 0 (s.setTable d (u.expand s.sup)))) :=
    perform_ok hf (List.forall_mem_singleton.2 hd) _
  rw [hchecks, onLive_live hlive, hlegal, require_true]
  exact ⟨_, rfl, slot_setTable_same (lt_length_of_live hlive) _, rfl⟩

theorem arity_le_of_ready {i : Instr} {s : State} (h : ready i s = true) {d : SlotNo} {t : Table} (hlive : s.slot d = .live t) :
    t.n ≤ 22 := by
  obtain ⟨hinv, -, -⟩ := (ready_iff i s).1 h
  obtain ⟨hvalid, hmem, -, -⟩ := (inv_iff s).1 hinv
  obtain ⟨-, hle, -⟩ := Memory.wf_slot hmem hlive
  simp only [Config.valid, Bool.and_eq_true, decide_eq_true_eq] at hvalid
  omega

/-- Settles O44: the state after MINBASEI passes EXPANDI's checks, and the table EXPANDI then writes is the one that
`Table.minBase_expand` gives back. -/
theorem expandiUndoesMinbasei : Obligations.ExpandiUndoesMinbasei := by
  intro s s1 d tb hready hlive hexec
  obtain ⟨-, hf, hwf⟩ := (ready_iff _ s).1 hready
  have htb := table_wf_of_ready hready hlive
  have hn := arity_le_of_ready hready hlive
  rw [exec_minbasei_of_ready hready hlive] at hexec
  injection hexec with hs1
  subst hs1
  have hd : d.toNat < s.cfg.nt := (instr_wf_iff s.cfg _).1 hwf d (by simp [mem_namedSlots, Instr.dField?])
  have hslot := slot_setTable_same (lt_length_of_live hlive) tb.minBase.1
  obtain ⟨s2, hexec2, hslot2, hsup2⟩ := exec_expandi_of_legal
    (s := answer _ ((s.setTable d tb.minBase.1).setSup tb.minBase.2)) hf hd hslot (Table.minBase_expandLegal htb)
  exact ⟨s2, hexec2, hslot2.trans (congrArg _ (Table.minBase_expand htb (by omega))), hsup2⟩

end Sys2Proof.Machine
end

section
/-! The laws of R200 (`spec/44_extend.md`). EXT reads the source at `k mod 2^m`, so each law is a fact about that remainder: an
index below `2^m` is its own, taking it modulo a larger power of two first changes nothing, and no bit at or above `m` counts. -/

namespace Sys2Proof.Machine

/-! ### The low bits of an index -/

/-- The remainder modulo `2^m` is what the bits below `m` say. -/
theorem mod_LEN_eq_of_bits {m a b : Nat} (h : ∀ p, p < m → a.testBit p = b.testBit p) : a % LEN m = b % LEN m :=
  Nat.eq_of_testBit_eq fun p => by
    rw [LEN, Nat.testBit_mod_two_pow, Nat.testBit_mod_two_pow]
    by_cases hp : p < m
    · rw [h p hp]
    · rw [decide_eq_false hp, Bool.false_and, Bool.false_and]

theorem idxClear_mod_LEN {m v : Nat} (hv : m ≤ v) (k : Nat) : idxClear k v % LEN m = k % LEN m :=
  mod_LEN_eq_of_bits fun p hp => by rw [testBit_idxClear, decide_eq_true (show p ≠ v by omega), Bool.and_true]

theorem idxSet_mod_LEN {m v : Nat} (hv : m ≤ v) (k : Nat) : idxSet k v % LEN m = k % LEN m :=
  mod_LEN_eq_of_bits fun p hp => by rw [testBit_idxSet, decide_eq_false (show ¬ p = v by omega), Bool.or_false]

theorem mod_LEN_mod_LEN {m n : Nat} (h : m ≤ n) (k : Nat) : k % LEN n % LEN m = k % LEN m :=
  Nat.mod_mod_of_dvd k (Nat.pow_dvd_pow 2 h)

/-! ### What R197 says of an extended table -/

section
variable {t u : Table} {n : Nat} (hu : t.IsExt n u)
include hu

theorem Table.IsExt.n_eq : u.n = n := hu.1

theorem Table.IsExt.wf_eq_true : u.wf = true := hu.2.1

theorem Table.IsExt.bit_eq {k : Nat} (hk : k < LEN n) : u.bit k = t.bit (k % LEN t.n) := hu.2.2 k hk

/-- A table read through an index map that keeps the remainder `EXT` looks at is the extended table itself. -/
theorem Table.IsExt.eq_of_mod {w : Table} {g : Nat → Nat} (hw : w.IsBits u.n fun k => u.bit (g k)) (hg : Below n g)
    (hmod : ∀ k, g k % LEN t.n = k % LEN t.n) : w = u := by
  rw [hu.n_eq] at hw
  refine (Table.IsBits.eq_iff hw hu).2 fun k hk => ?_
  rw [hu.bit_eq (hg.lt k hk), hmod]

end

/-! ### The laws, one by one -/

section
variable {t : Table} (h : t.wf = true)
include h

theorem Table.extend_self : t.extend t.n = t :=
  (Table.IsBits.eq_iff (Table.extend_isExt h le_rfl) (Table.isBits_self h)).2 fun _ hk => by rw [Nat.mod_eq_of_lt hk]

variable {n : Nat} (hn : t.n ≤ n)
include hn

theorem Table.extend_extend {n' : Nat} (hn' : n ≤ n') : (t.extend n).extend n' = t.extend n' := by
  have hext := Table.extend_isExt h hn
  have htwice := Table.extend_isExt hext.wf_eq_true (hext.n_eq.trans_le hn')
  refine (Table.IsBits.eq_iff htwice (Table.extend_isExt h (hn.trans hn'))).2 fun k _ => ?_
  rw [hext.n_eq, hext.bit_eq (Nat.mod_lt k (Nat.two_pow_pos n)), mod_LEN_mod_LEN hn]

variable {v : Nat} (hv : t.n ≤ v) (hvn : v < n)
include hv hvn

theorem Table.cof0_extend : (t.extend n).cof0 v = t.extend n := by
  have hext := Table.extend_isExt h hn
  exact hext.eq_of_mod (Table.cof0_isCof0 hext.wf_eq_true (hvn.trans_eq hext.n_eq.symm))
    (below_idxClear hvn) (idxClear_mod_LEN hv)

theorem Table.cof1_extend : (t.extend n).cof1 v = t.extend n := by
  have hext := Table.extend_isExt h hn
  exact hext.eq_of_mod (Table.cof1_isCof1 hext.wf_eq_true (hvn.trans_eq hext.n_eq.symm))
    (below_idxSet hvn) (idxSet_mod_LEN hv)

end

/-- Settles O46: the last clause, the source in the low bits, is R197 read at each bit. -/
theorem extensionLaws : Obligations.ExtensionLaws := by
  intro t n n' h hn hn'
  exact ⟨Table.extend_self h, Table.extend_extend h hn hn',
    fun v hv hvn => ⟨Table.cof0_extend h hn hv hvn, Table.cof1_extend h hn hv hvn⟩,
    fun _ hk => (Table.extend_isExt h hn).bit_eq hk⟩

end Sys2Proof.Machine
end

section
/-! The laws of R218 (`spec/45_shift_enum.md`). `Table.shl_isShl` gives each bit of a shifted table whatever the regime, so each
law is a fact about the index `k - sh`: amounts add up, and the shift moves 1 bits up or drops them. -/

namespace Sys2Proof.Machine

/-- The shifted sequence put in front of `sh` more places would hold all 1 bits of `p`; cutting it at `n` only loses some. -/
theorem countP_range_shift_le (p : Nat → Bool) (sh n : Nat) :
    (List.range n).countP (fun k => decide (sh ≤ k) && p (k - sh)) ≤ (List.range n).countP p := by
  have hlow : (List.range sh).countP (fun k => decide (sh ≤ k) && p (k - sh)) = 0 :=
    List.countP_eq_zero.2 fun k hk => by simp [List.mem_range.1 hk]
  have hhigh : ((fun k => decide (sh ≤ k) && p (k - sh)) ∘ fun k => sh + k) = p := funext fun k => by simp
  calc (List.range n).countP (fun k => decide (sh ≤ k) && p (k - sh))
      ≤ (List.range (sh + n)).countP (fun k => decide (sh ≤ k) && p (k - sh)) :=
        (List.range_sublist.2 (Nat.le_add_left n sh)).countP_le
    _ = (List.range n).countP p := by
        rw [List.range_add, List.countP_append, List.countP_map, hlow, hhigh, Nat.zero_add]

theorem Table.zero_isBits (n : Nat) : (Table.zero n).IsBits n fun _ => false :=
  ⟨rfl, Table.zero_wf n, fun k _ => Table.zero_bit n k⟩

/-! ### What R214 says of a shifted table -/

section
variable {t u : Table} {sh : Nat} (hu : t.IsShl sh u)
include hu

theorem Table.IsShl.n_eq : u.n = t.n := hu.1

theorem Table.IsShl.wf_eq_true : u.wf = true := hu.2.1

theorem Table.IsShl.bit_eq {k : Nat} (hk : k < LEN t.n) : u.bit k = (decide (sh ≤ k) && t.bit (k - sh)) := hu.2.2 k hk

theorem Table.IsShl.ones_le : u.ones ≤ t.ones := by
  have hbits : u.ones = (List.range (LEN t.n)).countP fun k => decide (sh ≤ k) && t.bit (k - sh) := by
    rw [Table.ones, hu.n_eq]
    exact List.countP_congr fun k hk => by rw [hu.bit_eq (List.mem_range.1 hk)]
  exact hbits.trans_le (countP_range_shift_le t.bit sh (LEN t.n))

end

/-! ### The laws, one by one -/

section
variable {t : Table} (h : t.wf = true)
include h

theorem Table.shl_zero : t.shl 0 = t :=
  (Table.IsBits.eq_iff (Table.shl_isShl h 0) (Table.isBits_self h)).2 fun k _ => by
    rw [decide_eq_true (Nat.zero_le k), Bool.true_and, Nat.sub_zero]

theorem Table.shl_eq_zero {a : Nat} (ha : LEN t.n ≤ a) : t.shl a = Table.zero t.n :=
  (Table.IsBits.eq_iff (Table.shl_isShl h a) (Table.zero_isBits t.n)).2 fun k hk => by
    rw [decide_eq_false (show ¬ a ≤ k by omega), Bool.false_and]

theorem Table.shl_shl (a b : Nat) : (t.shl a).shl b = t.shl (a + b) := by
  have ha := Table.shl_isShl h a
  have hb := Table.shl_isShl ha.wf_eq_true b
  rw [Table.IsShl, ha.n_eq] at hb
  refine (Table.IsBits.eq_iff hb (Table.shl_isShl h (a + b))).2 fun k hk => ?_
  have hsum : decide (a + b ≤ k) = (decide (b ≤ k) && decide (a ≤ k - b)) := by
    rw [← Bool.decide_and]
    exact decide_eq_decide.2 (by omega)
  rw [ha.bit_eq (show k - b < LEN t.n by omega), hsum, Bool.and_assoc, show k - b - a = k - (a + b) by omega]

end

/-- Settles O51: composition needs no bound on `a + b`, since the machine's function takes any amount; the bound of R218 is
that of the command's 64-bit operand. -/
theorem shiftLaws : Obligations.ShiftLaws := by
  intro t a b h
  exact ⟨Table.shl_zero h, Table.shl_eq_zero h, Table.shl_shl h a b, (Table.shl_isShl h a).ones_le⟩

end Sys2Proof.Machine
end

section
/-! The faults of a command as its checks raise them (`spec/60_exceptions.md` R232 to R246). Each check either passes on the
effect it guards or is the fault entry with its own cause, so the causes that a command can raise are read off its checks. -/

namespace Sys2Proof.Machine

/-! ### What a chain of checks can do -/

/-- `k`, the effect of a command's own rule in `s`, leaves the fault flag alone, or is the fault entry with a cause of `cs`. -/
def FaultsWithin (cs : List Cause) (s k : State) : Prop :=
  k.f = s.f ∨ ∃ c ∈ cs, k = faulted c s

theorem memWrite_f (s : State) (d : SlotNo) (b : Nat) (w : Block) : (s.memWrite d b w).f = s.f := by
  cases hd : s.slot d with
  | empty => rw [memWrite_empty hd]
  | live t => rw [memWrite_live hd, setTable_f]

section
variable {cs : List Cause} {s k : State}

theorem FaultsWithin.of_f_eq (h : k.f = s.f) : FaultsWithin cs s k := .inl h

theorem FaultsWithin.raise (c : Cause) : FaultsWithin (c :: cs) s (raise c s) := .inr ⟨c, List.mem_cons_self, rfl⟩

theorem FaultsWithin.mono {cs' : List Cause} (h : FaultsWithin cs s k) (hsub : cs ⊆ cs') : FaultsWithin cs' s k :=
  h.imp_right fun ⟨c, hc, hk⟩ => ⟨c, hsub hc, hk⟩

theorem FaultsWithin.cons (h : FaultsWithin cs s k) (c : Cause) : FaultsWithin (c :: cs) s k :=
  h.mono (List.subset_cons_self c cs)

theorem FaultsWithin.require {ok : Bool} {c : Cause} (h : FaultsWithin cs s k) :
    FaultsWithin (c :: cs) s (require ok c s k) := by
  obtain ⟨-, hpass⟩ | ⟨-, hfail⟩ := require_cases ok c s k
  · rw [hpass]; exact h.cons c
  · rw [hfail]; exact .raise c

theorem FaultsWithin.onLive {d : SlotNo} {k : Table → State} (h : ∀ t, FaultsWithin cs s (k t)) :
    FaultsWithin (.slotEmpty :: cs) s (onLive d s k) := by
  obtain ⟨t, -, hpass⟩ | ⟨-, hfail⟩ := onLive_cases d s k
  · rw [hpass]; exact (h t).cons _
  · rw [hfail]; exact .raise _

theorem FaultsWithin.onEmpty {d : SlotNo} (h : FaultsWithin cs s k) : FaultsWithin (.slotLive :: cs) s (onEmpty d s k) := by
  obtain ⟨-, hpass⟩ | ⟨-, hfail⟩ := onEmpty_cases d s k
  · rw [hpass]; exact h.cons _
  · rw [hfail]; exact .raise _

end

/-- The checks of each rule raise no cause but those that R246 lists for it. EXTFILL checks two slots, so its chain meets
`SLOT_EMPTY` twice. -/
theorem exec_checks {i : Instr} (hi : i ≠ .rdstat) (s : State) :
    ∃ k, exec i s = perform (namedSlots i) s k ∧ FaultsWithin (mayRaise i) s k := by
  cases i with
  | rdstat => exact absurd rfl hi
  | supclr => exact ⟨_, rfl, .of_f_eq rfl⟩
  | suppush | rdsup => exact ⟨_, rfl, .require (.of_f_eq rfl)⟩
  | create => exact ⟨_, rfl, .onEmpty (.require (.of_f_eq rfl))⟩
  | copy => exact ⟨_, rfl, .onLive fun _ => .onEmpty (.require (.of_f_eq rfl))⟩
  | destroy | rdnv | minbasei | nexti | shli => exact ⟨_, rfl, .onLive fun _ => .of_f_eq rfl⟩
  | wrblk => exact ⟨_, rfl, .onLive fun _ => .require (.of_f_eq (memWrite_f ..))⟩
  | rdblk | hasvar | cof0i | cof1i | swapadji | swapi | flipi | expandi =>
    exact ⟨_, rfl, .onLive fun _ => .require (.of_f_eq rfl)⟩
  | extfill =>
    refine ⟨_, rfl, .mono (.onLive fun _ => .onLive fun _ => .require (cs := []) (.of_f_eq rfl)) ?_⟩
    exact List.cons_subset.2 ⟨List.mem_cons_self, List.Subset.refl _⟩

/-- Everything that a command can do to the fault flag: leave it, or take one of its own faults or `ILLEGAL_CMD` (R246). -/
theorem exec_faultsWithin {i : Instr} {s t : State} (h : exec i s = .next t) :
    FaultsWithin (.illegalCmd :: mayRaise i) s t := by
  by_cases hi : i = .rdstat
  · subst hi
    injection h with ht
    exact .of_f_eq (ht ▸ rfl)
  · obtain ⟨k, hk, hwithin⟩ := exec_checks hi s
    obtain ⟨-, rfl⟩ | ⟨-, -, rfl⟩ | ⟨-, -, rfl⟩ := perform_cases (hk.symm.trans h)
    · exact .of_f_eq (ignore_f s)
    · exact .raise _
    · exact hwithin.cons _

/-- Code 0 is no fault (R231). -/
theorem none_notMem_mayRaise (i : Instr) : Cause.none ∉ mayRaise i := by
  cases i <;> simp [mayRaise]

/-- Settles O14: the flag was clear, so the command that set it took the fault entry, with a cause that some rule raises. -/
theorem faultEntryIsExact : Obligations.FaultEntryIsExact := by
  intro i s t hf hexec ht
  obtain hkept | ⟨c, hc, rfl⟩ := exec_faultsWithin hexec
  · rw [hkept, hf] at ht
    contradiction
  · refine ⟨?_, rfl⟩
    rintro rfl
    exact none_notMem_mayRaise i (List.mem_of_ne_of_mem (by decide) hc)

/-! ### A check that fails -/

/-- EXTFILL checks the destination first, but either empty slot gives the same fault (R232, R241). -/
theorem exec_of_needsLive_empty {i : Instr} {s : State} {d : SlotNo} (hd : d ∈ needsLive i) (hempty : s.slot d = .empty) :
    exec i s = perform (namedSlots i) s (raise .slotEmpty s) := by
  cases i with
  | create | rdstat | supclr | suppush | rdsup => exact nomatch hd
  | extfill dst src =>
    refine congrArg (perform [dst, src] s) ?_
    obtain rfl | hsrc := List.mem_cons.1 hd
    · exact onLive_empty hempty _
    · obtain rfl := List.mem_singleton.1 hsrc
      obtain ⟨_, -, hlive⟩ | ⟨-, hdst⟩ := onLive_cases dst s _
      · exact hlive.trans (onLive_empty hempty _)
      · exact hdst
  | _ =>
    obtain rfl := List.mem_singleton.1 hd
    exact congrArg (perform _ s) (onLive_empty hempty _)

/-- Settles O52: the slots exist, so nothing comes before the check that finds one of them `EMPTY`. -/
theorem emptySlotFaults : Obligations.EmptySlotFaults := by
  intro i s d hf hwf hd hempty
  rw [exec_of_needsLive_empty hd hempty]
  exact perform_ok hf ((instr_wf_iff s.cfg i).1 hwf) _

/-- One rule for every command on a live table whose one further check `ok` fails. -/
theorem fault_of_check {i : Instr} {s : State} {d : SlotNo} {tb : Table} {ok : Table → Bool} {c : Cause} {k : Table → State}
    (hexec : exec i s = perform [d] s (onLive d s fun t => require (ok t) c s (k t)))
    (hf : s.f = false) (hd : d.toNat < s.cfg.nt) (hlive : s.slot d = .live tb) (hok : ok tb = false) :
    exec i s = .next (faulted c s) := by
  rw [hexec, perform_ok hf (List.forall_mem_singleton.2 hd), onLive_live hlive, hok, require_false, raise_eq_faulted]

theorem exec_rdblk (d : SlotNo) (idx : BlockIdx) (s : State) :
    exec (.rdblk d idx) s = perform [d] s
      (onLive d s fun t => require (decide (idx.toNat < NB t.n)) .blkRange s (answer (t.block idx.toNat) s)) := rfl

theorem exec_wrblk (d : SlotNo) (idx : BlockIdx) (s : State) :
    exec (.wrblk d idx) s = perform [d] s
      (onLive d s fun t => require (decide (idx.toNat < NB t.n)) .blkRange s
        (answer 0 (s.memWrite d idx.toNat (s.cmd.wdata &&& lenMask t.n)))) := rfl

/-- Settles O55: both commands make the check of R236 on the table they find. -/
theorem blockRangeFaults : Obligations.BlockRangeFaults := by
  intro s d idx tb hf hd hlive hidx
  have hok : decide (idx.toNat < NB tb.n) = false := decide_eq_false (Nat.not_lt.2 hidx)
  exact ⟨fault_of_check (exec_rdblk d idx s) hf hd hlive hok, fault_of_check (exec_wrblk d idx s) hf hd hlive hok⟩

theorem exec_extfill (d src : SlotNo) (s : State) :
    exec (.extfill d src) s = perform (namedSlots (.extfill d src)) s
      (onLive d s fun u => onLive src s fun t =>
        require (decide (t.n ≤ u.n)) .extendRange s (answer 0 (s.setTable d (t.extend u.n)))) := rfl

/-- Settles O57: both slots are live, so the check of R238 is the one that decides. -/
theorem extendRangeFaults : Obligations.ExtendRangeFaults := by
  intro s d src tb old hf hwf hold htb hn
  have hok : decide (tb.n ≤ old.n) = false := decide_eq_false (Nat.not_le.2 hn)
  rw [exec_extfill, perform_ok hf ((instr_wf_iff s.cfg _).1 hwf), onLive_live hold, onLive_live htb, hok, require_false,
    raise_eq_faulted]

theorem exec_suppush (v : SmallOp) (s : State) :
    exec (.suppush v) s = perform [] s
      (require (decide (s.suplen < s.cfg.nmax)) .supRange s (answer 0 (s.setSup (s.sup ++ [v])))) := rfl

theorem exec_rdsup (p : SmallOp) (s : State) :
    exec (.rdsup p) s = perform [] s
      (require (decide (p.toNat < s.suplen)) .supRange s (answer (zext64 (s.sup.getD p.toNat 0).toNat) s)) := rfl

/-- Settles O58: neither command names a slot, so the check of R239 is all there is. -/
theorem supportRangeFaults : Obligations.SupportRangeFaults := by
  intro s hf
  have hslots : ∀ d ∈ ([] : List SlotNo), d.toNat < s.cfg.nt := List.forall_mem_nil _
  refine ⟨fun v hfull => ?_, fun p hpast => ?_⟩
  · rw [exec_suppush, perform_ok hf hslots, decide_eq_false hfull.not_lt, require_false, raise_eq_faulted]
  · rw [exec_rdsup, perform_ok hf hslots, decide_eq_false hpast.not_gt, require_false, raise_eq_faulted]

end Sys2Proof.Machine
end

section
/-! The decoder and the encoder (`spec/30_encoding.md` R84 to R91): when a word is read as a row's command, that every command's
own word is so read, and that the word is fixed by the command, because the mask leaves nothing but the fields that are read. -/

namespace Sys2Proof

/-! ### When a word decodes -/

@[simp] theorem ofCode_code (o : Opcode) : Opcode.ofCode o.code = some o := by cases o <;> rfl

/-- The commands of different rows are different, so a command says which row it was read from. -/
@[simp] theorem rowOf_read (o : Opcode) (cw : CmdWord) : rowOf (o.read cw) = o := by cases o <;> rfl

theorem opField_and (x y : CmdWord) : opField (x &&& y) = opField x &&& opField y := BitVec.extractLsb'_and

theorem opField_mask (o : Opcode) : opField o.mask = BitVec.allOnes 8 := by cases o <;> decide

theorem opField_matchWord (o : Opcode) : opField o.matchWord = o.code := by cases o <;> decide

/-- Every mask keeps the whole of `op` (R89). -/
theorem opField_of_match {o : Opcode} {cw : CmdWord} (h : cw &&& o.mask = o.matchWord) : opField cw = o.code := by
  have hop := congrArg opField h
  rwa [opField_and, opField_mask, opField_matchWord, BitVec.and_allOnes] at hop

theorem decode_of_code {o : Opcode} {cw : CmdWord} (h : opField cw = o.code) :
    decode cw = if cw &&& o.mask = o.matchWord then .ok (o.read cw) else .error (.reservedFieldNotZero o) := by
  rw [decode, h, ofCode_code]

theorem decode_of_match {o : Opcode} {cw : CmdWord} (h : cw &&& o.mask = o.matchWord) : decode cw = .ok (o.read cw) := by
  rw [decode_of_code (opField_of_match h), if_pos h]

/-- Everything that a decoded word says: the row its command was read from, and the row's match. -/
theorem match_of_decode {cw : CmdWord} {i : Instr} (h : decode cw = .ok i) :
    i = (rowOf i).read cw ∧ cw &&& (rowOf i).mask = (rowOf i).matchWord := by
  unfold decode at h
  split at h
  · cases h
  · next o _ =>
    split at h
    · next hmatch =>
      injection h with h
      subst h
      rw [rowOf_read]
      exact ⟨rfl, hmatch⟩
    · cases h

/-- Settles O4: the row that the decoder finds is the row of the command, and the match decides the rest. -/
theorem decodeByMatchAndMask : Obligations.DecodeByMatchAndMask := by
  intro o cw
  refine ⟨fun h => ?_, decode_of_match⟩
  obtain ⟨-, hmatch⟩ := match_of_decode h
  rwa [rowOf_read] at hmatch

/-- Settles O1: ten words, each decoded by evaluation. -/
theorem manualWordsDecode : Obligations.ManualWordsDecode := by
  unfold Obligations.ManualWordsDecode
  decide

/-! ### The word of a command -/

/-- Every word of a command satisfies its row's match: the per-command statements of `Laws.EncodesItsRow`, gathered. -/
theorem encode_match (i : Instr) : encode i &&& (rowOf i).mask = (rowOf i).matchWord := by
  cases i with
  | create d n => exact (Laws.EncodesItsRow.create d n).2
  | destroy d => exact (Laws.EncodesItsRow.destroy d).2
  | copy d src => exact (Laws.EncodesItsRow.copy d src).2
  | rdblk d idx => exact (Laws.EncodesItsRow.rdblk d idx).2
  | wrblk d idx => exact (Laws.EncodesItsRow.wrblk d idx).2
  | rdstat => exact Laws.EncodesItsRow.rdstat.2
  | rdnv d => exact (Laws.EncodesItsRow.rdnv d).2
  | supclr => exact Laws.EncodesItsRow.supclr.2
  | suppush v => exact (Laws.EncodesItsRow.suppush v).2
  | rdsup p => exact (Laws.EncodesItsRow.rdsup p).2
  | hasvar d v => exact (Laws.EncodesItsRow.hasvar d v).2
  | cof0i d v => exact (Laws.EncodesItsRow.cof0i d v).2
  | cof1i d v => exact (Laws.EncodesItsRow.cof1i d v).2
  | swapadji d v => exact (Laws.EncodesItsRow.swapadji d v).2
  | swapi d v w => exact (Laws.EncodesItsRow.swapi d v w).2
  | flipi d v => exact (Laws.EncodesItsRow.flipi d v).2
  | minbasei d => exact (Laws.EncodesItsRow.minbasei d).2
  | expandi d => exact (Laws.EncodesItsRow.expandi d).2
  | extfill d src => exact (Laws.EncodesItsRow.extfill d src).2
  | nexti d => exact (Laws.EncodesItsRow.nexti d).2
  | shli d => exact (Laws.EncodesItsRow.shli d).2

/-- The fields that a row reads are those that the encoder packs. -/
@[simp] theorem read_encode (i : Instr) : (rowOf i).read (encode i) = i := by
  cases i <;> simp only [rowOf, Opcode.read, encode, dField_packV, sField_packV, aField_packV, bField_packV, dField_packX,
    idxField_packX]

/-- Settles O2: a command's word satisfies its row's match, and the row reads the command back from it. -/
theorem decodeOfEncode : Obligations.DecodeOfEncode := by
  intro i
  rw [decode_of_match (encode_match i), read_encode]

/-! ### One word for each command -/

theorem eq_of_and_eq_of_and_not_eq {n : Nat} {x y m : BitVec n} (hkept : x &&& m = y &&& m) (hrest : x &&& ~~~m = y &&& ~~~m) :
    x = y := by
  have hsplit : ∀ z : BitVec n, z = z &&& m ||| z &&& ~~~m := fun z =>
    (BitVec.and_or_distrib_left.symm.trans (by rw [BitVec.or_not_self, BitVec.and_allOnes])).symm
  rw [hsplit x, hsplit y, hkept, hrest]

theorem packV_not (op : BitVec 8) (d s : SlotNo) (a b : SmallOp) :
    ~~~packV op d s a b = packV (~~~op) (~~~d) (~~~s) (~~~a) (~~~b) := by
  show ~~~(op ++ d ++ s ++ a ++ b : BitVec (8 + 4 + 4 + 8 + 8)) = _
  simp only [BitVec.not_append, packV]

/-- The two bytes of a format X index are the `a` and `b` fields of the same word (R81, R82). -/
theorem packX_idxField (op : BitVec 8) (d s : SlotNo) (cw : CmdWord) :
    packX op d s (idxField cw) = packV op d s (aField cw) (bField cw) := by
  rw [packX_eq, idxField, aField, bField, BitVec.extractLsb'_extractLsb'_of_le (by decide),
    BitVec.extractLsb'_extractLsb'_of_le (by decide)]

/-- The encoder puts every field that a row reads back where it was. -/
theorem encode_read_used (o : Opcode) (cw : CmdWord) : encode (o.read cw) &&& ~~~o.mask = cw &&& ~~~o.mask := by
  obtain ⟨h1, h2, h3, h4, h5⟩ := Laws.mask_pack
  have h6 : (0xFFFFFFFF : CmdWord) = packV 0xFF 0xF 0xF 0xFF 0xFF := by decide
  conv_rhs => rw [← packV_fields cw]
  cases o <;>
    simp only [Opcode.read, encode, Opcode.mask, h1, h2, h3, h4, h5, h6, packX_idxField, packV_not, packV_and] <;> simp

/-- A word with its row's match is the word of the command that it is read as. -/
theorem encode_read_of_match {o : Opcode} {cw : CmdWord} (h : cw &&& o.mask = o.matchWord) : encode (o.read cw) = cw := by
  have hmatch := encode_match (o.read cw)
  rw [rowOf_read] at hmatch
  exact eq_of_and_eq_of_and_not_eq (hmatch.trans h.symm) (encode_read_used o cw)

/-- Settles O3: the must-be-zero fields are under the mask, and the used ones are those that were read. -/
theorem legalWordIsTheEncoding : Obligations.LegalWordIsTheEncoding := by
  intro cw i h
  obtain ⟨hread, hmatch⟩ := match_of_decode h
  rw [hread]
  exact encode_read_of_match hmatch

/-! ### Words that do not decode -/

/-- The map of R84 as the list of its opcodes. -/
theorem definedOps_eq : definedOps = Opcode.all.map (fun o => o.code.toNat) := by decide

theorem mem_all (o : Opcode) : o ∈ Opcode.all := by cases o <;> decide

theorem decode_of_undefined {cw : CmdWord} (h : (opField cw).toNat ∉ definedOps) :
    decode cw = .error (.undefinedOpcode (opField cw)) := by
  have hnone : Opcode.ofCode (opField cw) = none := by
    refine List.find?_eq_none.2 fun o _ hcode => h ?_
    rw [definedOps_eq, ← eq_of_beq hcode]
    exact List.mem_map_of_mem (mem_all o)
  rw [decode, hnone]

theorem decode_of_reserved {o : Opcode} {cw : CmdWord} (hop : opField cw = o.code) (h : encode (o.read cw) ≠ cw) :
    decode cw = .error (.reservedFieldNotZero o) := by
  rw [decode_of_code hop, if_neg fun hmatch => h (encode_read_of_match hmatch)]

end Sys2Proof
end

section
/-! What a step does with a word (`spec/60_exceptions.md` R233, R243; `spec/70_reset_and_hazards.md` R260, R261, R268): a word
that is no command takes `ILLEGAL_CMD`, a faulted unit answers without changing, and every step of a legal unit has a next
state. -/

namespace Sys2Proof.Machine

/-! ### Every command and every step answers -/

theorem exec_answers (i : Instr) (s : State) : ∃ t, exec i s = .next t := by
  by_cases hi : i = .rdstat
  · exact hi ▸ ⟨_, rfl⟩
  · obtain ⟨k, hk⟩ := exec_eq_perform hi s
    exact ⟨_, hk⟩

theorem performWord_answers (s : State) : ∃ t, performWord s = .next t := by
  obtain ⟨i, -, hi⟩ | ⟨_, -, herr⟩ := performWord_cases s
  · rw [hi]; exact exec_answers i s
  · exact ⟨_, herr⟩

theorem step_of_command {s u : State} (hv : s.cfg.valid = true) {c : Command} {rest : List Event}
    (hp : s.pending = .command c :: rest) (hu : performWord (present c rest s) = .next u) :
    step s = .next (recordAnswer u) := by
  rw [step_command hv hp, hu, recordOutcome]

theorem step_of_waiting {s : State} (hv : s.cfg.valid = true) (hp : s.pending = []) : step s = .next s := by
  rw [step, if_pos hv, advance, hp]

theorem step_of_reset {s : State} (hv : s.cfg.valid = true) {rest : List Event} (hp : s.pending = .reset :: rest) :
    step s = .next (applyReset { s with pending := rest }) := by
  rw [step, if_pos hv, advance, hp]

theorem step_of_invalid {s : State} (hv : s.cfg.valid = false) : step s = .refused .illegalParameters := by
  rw [step, hv, if_neg Bool.false_ne_true]

/-- Settles O11: the three things that the host can do, each with its next state. -/
theorem everyStepAnswers : Obligations.EveryStepAnswers := by
  refine ⟨fun s hv => ?_, exec_answers⟩
  match hp : s.pending with
  | [] => exact ⟨s, step_of_waiting hv hp⟩
  | .reset :: rest => exact ⟨_, step_of_reset hv hp⟩
  | .command c :: rest =>
    obtain ⟨u, hu⟩ := performWord_answers (present c rest s)
    exact ⟨_, step_of_command hv hp hu⟩

/-- Settles O10: the two cases are the step equations for an empty list and for parameters out of range. -/
theorem stepWithoutCommand : Obligations.StepWithoutCommand :=
  fun _ => ⟨step_of_waiting, step_of_invalid⟩

theorem performWord_of_decode {s : State} {i : Instr} (h : decode s.cmd.cw = .ok i) : performWord s = exec i s := by
  rw [performWord, h]

/-- Settles O9: the word on the port lines is the one presented. -/
theorem stepRunsTheDecodedCommand : Obligations.StepRunsTheDecodedCommand := by
  intro s t c rest i hv hp hdec hexec
  exact step_of_command hv hp ((performWord_of_decode (s := present c rest s) hdec).trans hexec)

/-! ### Reset -/

/-- Settles O17: a reset leaves the state of `State.resetWith`, whose values are O18's, and the host's two lists. -/
theorem resetClearsTheUnit : Obligations.ResetClearsTheUnit := by
  intro s rest hv hp
  exact ⟨_, step_of_reset hv hp, resetWith_slot s.cfg, List.length_replicate, rfl, rfl, rfl, rfl, rfl, rfl, rfl, rfl⟩

theorem resetWith_inv {c : Config} (hc : c.valid = true) : (State.resetWith c).Inv = true :=
  (inv_iff _).2 ⟨hc, Memory.wf_resetWith c, Nat.zero_le _, rfl⟩

/-- Settles O19: the standard unit is one of the legal ones. -/
theorem resetMeetsTheInvariant : Obligations.ResetMeetsTheInvariant :=
  ⟨fun _ => resetWith_inv, resetWith_inv (by decide)⟩

/-! ### Illegal words -/

theorem step_of_decode_error {s : State} {c : Command} {rest : List Event} {e : DecodeError} (hv : s.cfg.valid = true)
    (hf : s.f = false) (hp : s.pending = .command c :: rest) (hdec : decode c.cw = .error e) :
    step s = .next (recordAnswer (faulted .illegalCmd (present c rest s))) := by
  refine step_of_command hv hp ?_
  rw [performWord, present_cmd, hdec, performIllegal, present_f, hf, if_neg Bool.false_ne_true, raise_eq_faulted]

/-- Settles O6: a value of `op` outside the map is no row's opcode; the count is by evaluation. -/
theorem undefinedOpcodeFaults : Obligations.UndefinedOpcodeFaults := by
  refine ⟨by decide +kernel, fun s c rest hv hf hp hop => ?_⟩
  exact step_of_decode_error hv hf hp (decode_of_undefined hop)

/-- Settles O7: a word with its row's match would be the row's encoding. -/
theorem reservedFieldFaults : Obligations.ReservedFieldFaults := by
  intro s c rest o hv hf hp hop hne
  exact step_of_decode_error hv hf hp (decode_of_reserved hop hne)

/-! ### The faulted state -/

theorem exec_of_faulted {i : Instr} (hi : i ≠ .rdstat) {s : State} (hf : s.f = true) : exec i s = .next (ignore s) := by
  obtain ⟨k, hk⟩ := exec_eq_perform hi s
  rw [hk, perform, hf, if_pos rfl]

/-- RDSTAT has one word (R88), so the answer of a faulted unit depends on the word alone (R243). -/
theorem performWord_of_faulted {s : State} (hf : s.f = true) :
    performWord s = .next (answer (if s.cmd.cw = 0x06000000 then s.status else 0) s) := by
  obtain ⟨i, hdec, hi⟩ | ⟨e, hdec, herr⟩ := performWord_cases s
  · have hword := legalWordIsTheEncoding _ _ hdec
    rw [hi]
    by_cases hstat : i = .rdstat
    · subst hstat
      rw [if_pos (hword.symm.trans (by decide))]
      rfl
    · have hne : s.cmd.cw ≠ 0x06000000 := fun hc => by
        rw [hc, show decode 0x06000000 = .ok .rdstat by decide] at hdec
        injection hdec with hdec
        exact hstat hdec.symm
      rw [exec_of_faulted hstat hf, if_neg hne, ignore]
  · have hne : s.cmd.cw ≠ 0x06000000 := fun hc => by
      rw [hc, show decode 0x06000000 = .ok .rdstat by decide] at hdec
      cases hdec
    rw [herr, if_pos hf, if_neg hne, ignore]

theorem step_of_faulted {s : State} (hv : s.cfg.valid = true) (hf : s.f = true) {c : Command} {rest : List Event}
    (hp : s.pending = .command c :: rest) :
    step s = .next (recordAnswer (answer (if c.cw = 0x06000000 then s.status else 0) (present c rest s))) :=
  step_of_command hv hp (performWord_of_faulted (s := present c rest s) hf)

/-- Settles O12: the two answers are those of `step_of_faulted`. -/
theorem faultedUnitIgnores : Obligations.FaultedUnitIgnores := by
  intro s c rest hv hf hp
  have hstep := step_of_faulted hv hf hp
  refine ⟨fun hcw => ?_, fun hcw => ?_⟩
  · rw [hstep, if_pos hcw]; rfl
  · rw [hstep, if_neg hcw]; rfl

theorem runSteps_succ {k : Nat} {s t : State} (h : runSteps (k + 1) s = .next t) :
    ∃ u, step s = .next u ∧ runSteps k u = .next t := by
  rw [runSteps] at h
  split at h
  · next u hu => exact ⟨u, hu, h⟩
  · cases h
  · cases h

/-- The flag, the fault record, the slots, `R` and the support list of the unit are as before: what R243 keeps. -/
def UnitSame (s t : State) : Prop :=
  t.f = s.f ∧ t.cause = s.cause ∧ t.fcw = s.fcw ∧ t.slots = s.slots ∧ t.r = s.r ∧ t.sup = s.sup

theorem UnitSame.trans {s t u : State} (h : UnitSame s t) (h' : UnitSame t u) : UnitSame s u := by
  obtain ⟨h1, h2, h3, h4, h5, h6⟩ := h
  obtain ⟨h1', h2', h3', h4', h5', h6'⟩ := h'
  exact ⟨h1'.trans h1, h2'.trans h2, h3'.trans h3, h4'.trans h4, h5'.trans h5, h6'.trans h6⟩

/-- Without a reset a step keeps a faulted unit, and leaves no reset to come. -/
theorem step_of_faulted_same {s t : State} (hf : s.f = true) (hr : Event.reset ∉ s.pending) (h : step s = .next t) :
    UnitSame s t ∧ Event.reset ∉ t.pending := by
  obtain ⟨-, ⟨-, rfl⟩ | ⟨rest, hp, -⟩ | ⟨c, rest, u, hp, hu, rfl⟩⟩ := step_cases h
  · exact ⟨⟨rfl, rfl, rfl, rfl, rfl, rfl⟩, hr⟩
  · exact absurd (hp ▸ List.mem_cons_self) hr
  · rw [performWord_of_faulted (s := present c rest s) hf] at hu
    injection hu with hu
    subst hu
    exact ⟨⟨rfl, rfl, rfl, rfl, rfl, rfl⟩, fun hmem => hr (hp ▸ List.mem_cons_of_mem _ hmem)⟩

theorem runSteps_of_faulted_same {k : Nat} {s t : State} (hf : s.f = true) (hr : Event.reset ∉ s.pending)
    (h : runSteps k s = .next t) : UnitSame s t := by
  induction k generalizing s with
  | zero =>
    injection h with h
    subst h
    exact ⟨rfl, rfl, rfl, rfl, rfl, rfl⟩
  | succ k ih =>
    obtain ⟨u, hstep, hrun⟩ := runSteps_succ h
    obtain ⟨hsame, hr'⟩ := step_of_faulted_same hf hr hstep
    exact hsame.trans (ih (hsame.1.trans hf) hr' hrun)

/-- Settles O13, by induction on the number of steps. -/
theorem faultedStateIsAbsorbing : Obligations.FaultedStateIsAbsorbing := by
  intro k s t hf hr h
  obtain ⟨hf', hrest⟩ := runSteps_of_faulted_same hf hr h
  exact ⟨hf'.trans hf, hrest⟩

/-! ### Which faults a command takes -/

/-- Settles O15: the causes are those of `exec_faultsWithin`. -/
theorem causesOfEachCommand : Obligations.CausesOfEachCommand := by
  intro i s t hf hexec ht
  obtain hkept | ⟨c, hc, rfl⟩ := exec_faultsWithin hexec
  · rw [hkept, hf] at ht
    contradiction
  · exact List.mem_cons.1 hc

end Sys2Proof.Machine
end

section
/-! What a command that passes its checks does, said once for all 21 (`spec/40_store_access.md` to `spec/45_shift_enum.md`), and
the inversion of `exec`: a command is ignored, or takes the fault entry, or completes. -/

namespace Sys2Proof.Machine

/-! ### `exec`, command by command

An equation for each command that has none above, with the operands as numbers. -/

theorem exec_create (d : SlotNo) (n : SmallOp) (s : State) :
    exec (.create d n) s = perform (namedSlots (.create d n)) s
      (onEmpty d s (require (arityAccepted s d n.toNat) .arity s (answer 0 (s.setTable d (Table.zero n.toNat))))) := rfl

theorem exec_destroy (d : SlotNo) (s : State) :
    exec (.destroy d) s = perform (namedSlots (.destroy d)) s (onLive d s fun _ => answer 0 (s.setSlot d .empty)) := rfl

theorem exec_copy (d src : SlotNo) (s : State) :
    exec (.copy d src) s = perform (namedSlots (.copy d src)) s
      (onLive src s fun t => onEmpty d s (require (flavourAccepts s d t.n) .arity s (answer 0 (s.setTable d t)))) := rfl

theorem exec_rdnv (d : SlotNo) (s : State) :
    exec (.rdnv d) s = perform (namedSlots (.rdnv d)) s (onLive d s fun t => answer (zext64 t.n) s) := rfl

theorem exec_hasvar (d : SlotNo) (v : SmallOp) (s : State) :
    exec (.hasvar d v) s = perform (namedSlots (.hasvar d v)) s (onLive d s fun t =>
      require (decide (v.toNat < t.n)) .varRange s (answer (flagWord (t.hasVar v.toNat)) (s.setR (t.hasVar v.toNat)))) := rfl

theorem exec_swapi (d : SlotNo) (v w : SmallOp) (s : State) :
    exec (.swapi d v w) s = perform (namedSlots (.swapi d v w)) s (onLive d s fun t =>
      require (decide (v.toNat < t.n) && decide (w.toNat < t.n)) .varRange s
        (answer 0 (s.setTable d (t.swap v.toNat w.toNat)))) := rfl

theorem exec_flipi (d : SlotNo) (v : SmallOp) (s : State) :
    exec (.flipi d v) s = perform (namedSlots (.flipi d v)) s
      (onLive d s fun t => require (decide (v.toNat < t.n)) .varRange s (answer 0 (s.setTable d (t.flip v.toNat)))) := rfl

theorem exec_minbasei (d : SlotNo) (s : State) :
    exec (.minbasei d) s = perform (namedSlots (.minbasei d)) s (onLive d s fun t =>
      answer (zext64 t.minBase.2.length) ((s.setTable d t.minBase.1).setSup t.minBase.2)) := rfl

theorem exec_expandi (d : SlotNo) (s : State) :
    exec (.expandi d) s = perform (namedSlots (.expandi d)) s
      (onLive d s fun t => require (expandLegal t s.sup) .varRange s (answer 0 (s.setTable d (t.expand s.sup)))) := rfl

theorem exec_nexti (d : SlotNo) (s : State) :
    exec (.nexti d) s = perform (namedSlots (.nexti d)) s (onLive d s fun t => answer 0 (s.setTable d t.next)) := rfl

theorem exec_shli (d : SlotNo) (s : State) :
    exec (.shli d) s = perform (namedSlots (.shli d)) s
      (onLive d s fun t => answer 0 (s.setTable d (t.shl s.cmd.wdata.toNat))) := rfl

/-! ### The rules -/

/-- The commands that replace the table `t` of the live slot `d` by `u` and answer 0, each with its checks beyond the liveness of
`d`. -/
inductive Rewrites (s : State) : Instr → SlotNo → Table → Table → Prop
  | wrblk {d idx t} (hidx : idx.toNat < NB t.n) :
      Rewrites s (.wrblk d idx) d t (t.setBlock idx.toNat (s.cmd.wdata &&& lenMask t.n))
  | cof0i {d v t} (hv : v.toNat < t.n) : Rewrites s (.cof0i d v) d t (t.cof0 v.toNat)
  | cof1i {d v t} (hv : v.toNat < t.n) : Rewrites s (.cof1i d v) d t (t.cof1 v.toNat)
  | swapadji {d v t} (hv : v.toNat + 1 < t.n) : Rewrites s (.swapadji d v) d t (t.swapAdj v.toNat)
  | swapi {d v w t} (hv : v.toNat < t.n) (hw : w.toNat < t.n) : Rewrites s (.swapi d v w) d t (t.swap v.toNat w.toNat)
  | flipi {d v t} (hv : v.toNat < t.n) : Rewrites s (.flipi d v) d t (t.flip v.toNat)
  | expandi {d t} (hlegal : expandLegal t s.sup = true) : Rewrites s (.expandi d) d t (t.expand s.sup)
  | extfill {d src t tb} (hsrc : s.slot src = .live tb) (hn : tb.n ≤ t.n) : Rewrites s (.extfill d src) d t (tb.extend t.n)
  | nexti {d t} : Rewrites s (.nexti d) d t t.next
  | shli {d t} : Rewrites s (.shli d) d t (t.shl s.cmd.wdata.toNat)

/-- `Completes s i t`: the checks of `i` pass in `s`, and `t` is `s` after its effect. -/
inductive Completes (s : State) : Instr → State → Prop
  | create {d n} (hempty : s.slot d = .empty) (hn : arityAccepted s d n.toNat = true) :
      Completes s (.create d n) (answer 0 (s.setTable d (Table.zero n.toNat)))
  | destroy {d t} (hlive : s.slot d = .live t) : Completes s (.destroy d) (answer 0 (s.setSlot d .empty))
  | copy {d src t} (hsrc : s.slot src = .live t) (hempty : s.slot d = .empty) (hn : flavourAccepts s d t.n = true) :
      Completes s (.copy d src) (answer 0 (s.setTable d t))
  | rdblk {d idx t} (hlive : s.slot d = .live t) (hidx : idx.toNat < NB t.n) :
      Completes s (.rdblk d idx) (answer (t.block idx.toNat) s)
  | rdstat : Completes s .rdstat (answer s.status s)
  | rdnv {d t} (hlive : s.slot d = .live t) : Completes s (.rdnv d) (answer (zext64 t.n) s)
  | supclr : Completes s .supclr (answer 0 (s.setSup []))
  | suppush {v} (hlen : s.suplen < s.cfg.nmax) : Completes s (.suppush v) (answer 0 (s.setSup (s.sup ++ [v])))
  | rdsup {p} (hlen : p.toNat < s.suplen) : Completes s (.rdsup p) (answer (zext64 (s.sup.getD p.toNat 0).toNat) s)
  | hasvar {d v t} (hlive : s.slot d = .live t) (hv : v.toNat < t.n) :
      Completes s (.hasvar d v) (answer (flagWord (t.hasVar v.toNat)) (s.setR (t.hasVar v.toNat)))
  | minbasei {d t} (hlive : s.slot d = .live t) :
      Completes s (.minbasei d) (answer (zext64 t.minBase.2.length) ((s.setTable d t.minBase.1).setSup t.minBase.2))
  | rewrite {i d t u} (hlive : s.slot d = .live t) (h : Rewrites s i d t u) : Completes s i (answer 0 (s.setTable d u))

/-! ### A chain of checks ends in the effect or in a fault -/

/-- `k`, what a rule answers in `s`, satisfies `P` or is the fault entry with a cause. -/
def EndsIn (P : State → Prop) (s k : State) : Prop :=
  P k ∨ ∃ c, c ≠ Cause.none ∧ k = raise c s

section
variable {P : State → Prop} {s : State}

theorem EndsIn.require {ok : Bool} {c : Cause} {k : State} (hc : c ≠ .none) (h : ok = true → EndsIn P s k) :
    EndsIn P s (require ok c s k) := by
  obtain ⟨hok, hpass⟩ | ⟨-, hfail⟩ := require_cases ok c s k
  · rw [hpass]; exact h hok
  · exact .inr ⟨c, hc, hfail⟩

theorem EndsIn.onLive {d : SlotNo} {k : Table → State} (h : ∀ t, s.slot d = .live t → EndsIn P s (k t)) :
    EndsIn P s (onLive d s k) := by
  obtain ⟨t, hlive, hpass⟩ | ⟨-, hfail⟩ := onLive_cases d s k
  · rw [hpass]; exact h t hlive
  · exact .inr ⟨_, by decide, hfail⟩

theorem EndsIn.onEmpty {d : SlotNo} {k : State} (h : s.slot d = .empty → EndsIn P s k) : EndsIn P s (onEmpty d s k) := by
  obtain ⟨hempty, hpass⟩ | ⟨-, hfail⟩ := onEmpty_cases d s k
  · rw [hpass]; exact h hempty
  · exact .inr ⟨_, by decide, hfail⟩

/-- The shape of most engine commands: a live table, one check of it, and its replacement. -/
theorem EndsIn.rewrite {d : SlotNo} {ok : Table → Bool} {c : Cause} {f : Table → Table} {i : Instr} (hc : c ≠ .none)
    (h : ∀ t, ok t = true → Rewrites s i d t (f t)) :
    EndsIn (Completes s i) s (Machine.onLive d s fun t => Machine.require (ok t) c s (answer 0 (s.setTable d (f t)))) :=
  .onLive fun t hlive => .require hc fun hok => .inl (.rewrite hlive (h t hok))

end

/-- The own rule of every command with checks ends in its completion or in a fault. -/
theorem exec_rule {i : Instr} (hi : i ≠ .rdstat) (s : State) :
    ∃ k, exec i s = perform (namedSlots i) s k ∧ EndsIn (Completes s i) s k := by
  cases i with
  | rdstat => exact absurd rfl hi
  | create d n => exact ⟨_, rfl, .onEmpty fun he => .require (by decide) fun hn => .inl (.create he hn)⟩
  | destroy d => exact ⟨_, rfl, .onLive fun _ hl => .inl (.destroy hl)⟩
  | copy d src =>
    exact ⟨_, rfl, .onLive fun _ hl => .onEmpty fun he => .require (by decide) fun hn => .inl (.copy hl he hn)⟩
  | rdblk d idx =>
    exact ⟨_, rfl, .onLive fun _ hl => .require (by decide) fun hidx => .inl (.rdblk hl (of_decide_eq_true hidx))⟩
  | wrblk d idx =>
    refine ⟨_, exec_wrblk d idx s, .onLive fun t hl => .require (by decide) fun hidx => .inl ?_⟩
    rw [memWrite_live hl]
    exact .rewrite hl (.wrblk (of_decide_eq_true hidx))
  | rdnv d => exact ⟨_, rfl, .onLive fun _ hl => .inl (.rdnv hl)⟩
  | supclr => exact ⟨_, rfl, .inl .supclr⟩
  | suppush v => exact ⟨_, exec_suppush v s, .require (by decide) fun h => .inl (.suppush (of_decide_eq_true h))⟩
  | rdsup p => exact ⟨_, exec_rdsup p s, .require (by decide) fun h => .inl (.rdsup (of_decide_eq_true h))⟩
  | hasvar d v =>
    exact ⟨_, rfl, .onLive fun _ hl => .require (by decide) fun hv => .inl (.hasvar hl (of_decide_eq_true hv))⟩
  | minbasei d => exact ⟨_, rfl, .onLive fun _ hl => .inl (.minbasei hl)⟩
  | cof0i d v => exact ⟨_, exec_cof0i d v s, .rewrite (by decide) fun _ h => .cof0i (of_decide_eq_true h)⟩
  | cof1i d v => exact ⟨_, exec_cof1i d v s, .rewrite (by decide) fun _ h => .cof1i (of_decide_eq_true h)⟩
  | swapadji d v => exact ⟨_, exec_swapadji d v s, .rewrite (by decide) fun _ h => .swapadji (of_decide_eq_true h)⟩
  | swapi d v w =>
    refine ⟨_, rfl, .rewrite (by decide) fun _ h => ?_⟩
    obtain ⟨hv, hw⟩ := (Bool.and_eq_true _ _).mp h
    exact .swapi (of_decide_eq_true hv) (of_decide_eq_true hw)
  | flipi d v => exact ⟨_, rfl, .rewrite (by decide) fun _ h => .flipi (of_decide_eq_true h)⟩
  | expandi d => exact ⟨_, rfl, .rewrite (by decide) fun _ h => .expandi h⟩
  | extfill d src =>
    exact ⟨_, exec_extfill d src s, .onLive fun _ hl => .onLive fun _ hsrc => .require (by decide) fun hn =>
      .inl (.rewrite hl (.extfill hsrc (of_decide_eq_true hn)))⟩
  | nexti d => exact ⟨_, rfl, .onLive fun _ hl => .inl (.rewrite hl .nexti)⟩
  | shli d => exact ⟨_, rfl, .onLive fun _ hl => .inl (.rewrite hl .shli)⟩

/-- Everything that a command can do, in any state. -/
theorem exec_cases {i : Instr} {s t : State} (h : exec i s = .next t) :
    t = ignore s ∨ (∃ c, c ≠ Cause.none ∧ t = raise c s) ∨ Completes s i t := by
  by_cases hi : i = .rdstat
  · subst hi
    injection h with ht
    exact .inr (.inr (ht ▸ .rdstat))
  · obtain ⟨k, hk, hends⟩ := exec_rule hi s
    obtain ⟨-, rfl⟩ | ⟨-, -, rfl⟩ | ⟨-, -, rfl⟩ := perform_cases (hk.symm.trans h)
    · exact .inl rfl
    · exact .inr (.inl ⟨_, by decide, rfl⟩)
    · exact .inr hends.symm

/-! ### The rules are what `exec` does -/

theorem Rewrites.exec_eq {i : Instr} {s : State} {d : SlotNo} {t u : Table} (h : Rewrites s i d t u)
    (hlive : s.slot d = .live t) : exec i s = perform (namedSlots i) s (answer 0 (s.setTable d u)) := by
  cases h with
  | wrblk hidx =>
    rw [exec_wrblk, onLive_live hlive, decide_eq_true hidx, require_true, memWrite_live hlive]
    rfl
  | cof0i hv => rw [exec_cof0i, onLive_live hlive, decide_eq_true hv, require_true]
  | cof1i hv => rw [exec_cof1i, onLive_live hlive, decide_eq_true hv, require_true]
  | swapadji hv => rw [exec_swapadji, onLive_live hlive, decide_eq_true hv, require_true]
  | swapi hv hw =>
    rw [exec_swapi, onLive_live hlive, decide_eq_true hv, decide_eq_true hw, Bool.and_self, require_true]
  | flipi hv => rw [exec_flipi, onLive_live hlive, decide_eq_true hv, require_true]
  | expandi hlegal => rw [exec_expandi, onLive_live hlive, hlegal, require_true]
  | extfill hsrc hn => rw [exec_extfill, onLive_live hlive, onLive_live hsrc, decide_eq_true hn, require_true]
  | nexti => rw [exec_nexti, onLive_live hlive]
  | shli => rw [exec_shli, onLive_live hlive]

/-- A command whose checks pass in a state that is ready for it completes. -/
theorem Completes.exec_eq {i : Instr} {s t : State} (h : Completes s i t) (hready : ready i s = true) :
    exec i s = .next t := by
  cases h with
  | create hempty hn =>
    rw [exec_create, perform_ready hready, onEmpty_empty hempty, hn, require_true]
  | destroy hlive => rw [exec_destroy, perform_ready hready, onLive_live hlive]
  | copy hsrc hempty hn =>
    rw [exec_copy, perform_ready hready, onLive_live hsrc, onEmpty_empty hempty, hn, require_true]
  | rdblk hlive hidx =>
    rw [exec_rdblk, onLive_live hlive, decide_eq_true hidx, require_true]
    exact perform_ready hready _
  | rdstat => rfl
  | rdnv hlive => rw [exec_rdnv, perform_ready hready, onLive_live hlive]
  | supclr => exact perform_ready hready _
  | suppush hlen =>
    rw [exec_suppush, decide_eq_true hlen, require_true]
    exact perform_ready hready _
  | rdsup hlen =>
    rw [exec_rdsup, decide_eq_true hlen, require_true]
    exact perform_ready hready _
  | hasvar hlive hv => rw [exec_hasvar, perform_ready hready, onLive_live hlive, decide_eq_true hv, require_true]
  | minbasei hlive => rw [exec_minbasei, perform_ready hready, onLive_live hlive]
  | rewrite hlive h => rw [h.exec_eq hlive, perform_ready hready]

end Sys2Proof.Machine
end

section
/-! The invariant (`spec/10_state.md` R30 to R38): every update that the rules are made of keeps it, so every command and every
step does. -/

namespace Sys2Proof.Machine

/-! ### What the updates keep -/

section
variable {s : State} (h : s.Inv = true)
include h

theorem recordAnswer_inv : (recordAnswer s).Inv = true := h

theorem raise_inv {c : Cause} (hc : c ≠ .none) : (raise c s).Inv = true := by
  obtain ⟨hvalid, hmem, hsup, -⟩ := (inv_iff s).1 h
  exact (inv_iff _).2 ⟨hvalid, hmem, hsup, bne_iff_ne.2 hc⟩

theorem setSup_inv {l : List SupEntry} (hl : l.length ≤ s.cfg.nmax) : (s.setSup l).Inv = true := by
  obtain ⟨hvalid, hmem, -, hrec⟩ := (inv_iff s).1 h
  exact (inv_iff _).2 ⟨hvalid, hmem, hl, hrec⟩

theorem setSlot_inv {d : SlotNo} {v : Slot} (hv : Slot.wf s.cfg d.toNat v = true) : (s.setSlot d v).Inv = true := by
  obtain ⟨hvalid, hmem, hsup, hrec⟩ := (inv_iff s).1 h
  exact (inv_iff _).2 ⟨hvalid, Memory.wf_setSlot hmem d hv, hsup, hrec⟩

/-- What the invariant says of a live slot (R10, R14, R31). -/
theorem wf_of_live {d : SlotNo} {t : Table} (hlive : s.slot d = .live t) :
    t.wf = true ∧ t.n ≤ s.cfg.nmax ∧ ∀ f, s.cfg.fixedArity d = some f → t.n = f := by
  obtain ⟨-, hmem, -, -⟩ := (inv_iff s).1 h
  exact Memory.wf_slot hmem hlive

/-- A live slot keeps its arity, so what the slot's flavour allows is kept too. -/
theorem setTable_inv {d : SlotNo} {t u : Table} (hlive : s.slot d = .live t) (hu : u.wf = true) (hn : u.n = t.n) :
    (s.setTable d u).Inv = true := by
  obtain ⟨-, harity⟩ := wf_of_live h hlive
  exact setSlot_inv h ((Slot.wf_live _ _ _).2 ⟨hu, hn.symm ▸ harity⟩)

/-- The table that a command puts into a live slot is well formed and of the arity of the slot. -/
theorem Rewrites.kept {i : Instr} {d : SlotNo} {t u : Table} (hrw : Rewrites s i d t u) (hlive : s.slot d = .live t) :
    u.wf = true ∧ u.n = t.n := by
  obtain ⟨ht, -, -⟩ := wf_of_live h hlive
  cases hrw with
  | wrblk hidx => exact ⟨Table.setBlock_masked_wf ht hidx _, rfl⟩
  | cof0i hv => exact ⟨(Table.cof0_isCof0 ht hv).wf_eq_true, (Table.cof0_isCof0 ht hv).n_eq⟩
  | cof1i hv => exact ⟨(Table.cof1_isCof1 ht hv).wf_eq_true, (Table.cof1_isCof1 ht hv).n_eq⟩
  | swapadji hv => exact ⟨(Table.swapAdj_isSwap ht hv).wf_eq_true, (Table.swapAdj_isSwap ht hv).n_eq⟩
  | swapi hv hw => exact Table.swap_wf ht hv hw
  | flipi hv => exact ⟨(Table.flip_isFlip ht hv).wf_eq_true, (Table.flip_isFlip ht hv).n_eq⟩
  | expandi hlegal => exact Table.expand_kept ht hlegal
  | extfill hsrc hn =>
    obtain ⟨htb, -, -⟩ := wf_of_live h hsrc
    exact ⟨(Table.extend_isExt htb hn).wf_eq_true, (Table.extend_isExt htb hn).n_eq⟩
  | nexti =>
    obtain ⟨hn, hwf, -⟩ := Table.next_spec ht
    exact ⟨hwf, hn⟩
  | shli => exact ⟨(Table.shl_isShl ht _).wf_eq_true, (Table.shl_isShl ht _).n_eq⟩

end

theorem flavourAccepts_iff (s : State) (d : SlotNo) (n : Nat) :
    flavourAccepts s d n = true ↔ ∀ f, s.cfg.fixedArity d = some f → n = f := by
  simp only [flavourAccepts, Option.all_eq_true, beq_iff_eq]

theorem arityAccepted_iff (s : State) (d : SlotNo) (n : Nat) :
    arityAccepted s d n = true ↔ n ≤ s.cfg.nmax ∧ ∀ f, s.cfg.fixedArity d = some f → n = f := by
  rw [arityAccepted, Bool.and_eq_true, decide_eq_true_eq, flavourAccepts_iff]

/-! ### Every command, every step -/

theorem Completes.inv {i : Instr} {s t : State} (hdone : Completes s i t) (h : s.Inv = true) : t.Inv = true := by
  cases hdone with
  | create hempty hn =>
    exact setSlot_inv h ((Slot.wf_live _ _ _).2 ⟨Table.zero_wf _, (arityAccepted_iff _ _ _).1 hn⟩)
  | destroy => exact setSlot_inv h rfl
  | copy hsrc hempty hn =>
    obtain ⟨ht, hmax, -⟩ := wf_of_live h hsrc
    exact setSlot_inv h ((Slot.wf_live _ _ _).2 ⟨ht, hmax, (flavourAccepts_iff _ _ _).1 hn⟩)
  | rdblk | rdstat | rdnv | rdsup | hasvar => exact h
  | supclr => exact setSup_inv h (Nat.zero_le _)
  | suppush hlen => exact setSup_inv h (List.length_append.trans_le hlen)
  | minbasei hlive =>
    obtain ⟨ht, hmax, -⟩ := wf_of_live h hlive
    have hkept := Table.minBase_kept ht
    exact setSup_inv (setTable_inv h hlive hkept.wf hkept.arity) (hkept.length.trans hmax)
  | rewrite hlive hrw =>
    obtain ⟨hu, hn⟩ := hrw.kept h hlive
    exact setTable_inv h hlive hu hn

theorem exec_inv {i : Instr} {s t : State} (h : s.Inv = true) (hexec : exec i s = .next t) : t.Inv = true := by
  obtain rfl | ⟨c, hc, rfl⟩ | hdone := exec_cases hexec
  · exact h
  · exact raise_inv h hc
  · exact hdone.inv h

theorem performWord_inv {s t : State} (h : s.Inv = true) (hperform : performWord s = .next t) : t.Inv = true := by
  obtain ⟨i, -, hi⟩ | ⟨_, -, herr⟩ := performWord_cases s
  · exact exec_inv h (hi.symm.trans hperform)
  · rw [herr] at hperform
    injection hperform with ht
    rw [← ht]
    split_ifs
    · exact h
    · exact raise_inv h (by decide)

/-- Settles O20: waiting changes nothing, a reset is `resetWith_inv`, and a command is `performWord_inv`; the port lines and the
host's two lists are no part of the invariant. -/
theorem stepKeepsTheInvariant : Obligations.StepKeepsTheInvariant := by
  intro s t h hstep
  obtain ⟨hvalid, ⟨-, rfl⟩ | ⟨rest, -, rfl⟩ | ⟨c, rest, u, -, hu, rfl⟩⟩ := step_cases hstep
  · exact h
  · exact resetWith_inv hvalid
  · exact recordAnswer_inv (performWord_inv (s := present c rest s) h hu)

end Sys2Proof.Machine
end

section
/-! What a command leaves alone (`spec/10_state.md` R34, R36, R38; `spec/40_store_access.md` R104): slots other than its
destination, arities, the flags it has no business with, and everything that belongs to the host. -/

namespace Sys2Proof.Machine

theorem Rewrites.dField_eq {s : State} {i : Instr} {d : SlotNo} {t u : Table} (h : Rewrites s i d t u) :
    i.dField? = some d := by
  cases h <;> rfl

/-- What no command writes: the parameters, the input lines of the port, and the host's two lists (R45, R260). -/
theorem exec_host_same {i : Instr} {s t : State} (h : exec i s = .next t) :
    t.cfg = s.cfg ∧ t.cmd = s.cmd ∧ t.pending = s.pending ∧ t.outputs = s.outputs := by
  obtain rfl | ⟨c, -, rfl⟩ | hdone := exec_cases h
  · exact ⟨rfl, rfl, rfl, rfl⟩
  · exact ⟨rfl, rfl, rfl, rfl⟩
  · cases hdone <;> exact ⟨rfl, rfl, rfl, rfl⟩

/-- A command that completes writes no slot but the one its `d` field names (R34). -/
theorem Completes.slot_other {i : Instr} {s t : State} {e : SlotNo} (h : Completes s i t) (he : i.dField? ≠ some e) :
    t.slot e = s.slot e := by
  have hne : ∀ {d}, i.dField? = some d → e ≠ d := fun hd hed => he (hed ▸ hd)
  cases h with
  | rdblk | rdstat | rdnv | supclr | suppush | rdsup | hasvar => rfl
  | create | destroy | copy | minbasei => exact slot_setSlot_other s (hne rfl) _
  | rewrite _ hrw => exact slot_setSlot_other s (hne hrw.dField_eq) _

theorem exec_slot_other {i : Instr} {s t : State} {e : SlotNo} (h : exec i s = .next t) (he : i.dField? ≠ some e) :
    t.slot e = s.slot e := by
  obtain rfl | ⟨c, -, rfl⟩ | hdone := exec_cases h
  · rfl
  · rfl
  · exact hdone.slot_other he

/-- Settles O22: blocks and bytes are read through the slot. -/
theorem exclusiveOwnership : Obligations.ExclusiveOwnership :=
  fun _ _ _ _ h he => slotSame_of_slot (exec_slot_other h he)

/-- Settles O23: of the rules, one writes `R` and three the support list. -/
theorem whoWritesTheFlags : Obligations.WhoWritesTheFlags := by
  intro i s t h
  have hcfg := (exec_host_same h).1
  obtain rfl | ⟨c, -, rfl⟩ | hdone := exec_cases h
  · exact ⟨fun _ => rfl, fun _ _ _ => rfl, rfl⟩
  · exact ⟨fun _ => rfl, fun _ _ _ => rfl, rfl⟩
  · refine ⟨fun hr => ?_, fun hmin hclr hpush => ?_, hcfg⟩
    · cases hdone with
      | hasvar => exact absurd rfl (hr _ _)
      | _ => rfl
    · cases hdone with
      | minbasei => exact absurd rfl (hmin _)
      | supclr => exact absurd rfl hclr
      | suppush => exact absurd rfl (hpush _)
      | _ => rfl

/-! ### The slot state machine -/

/-- A slot that is `EMPTY` is filled by CREATE and COPY only (R104). -/
theorem Completes.of_empty {i : Instr} {s t : State} {e : SlotNo} (h : Completes s i t) (hempty : s.slot e = .empty) :
    t.slot e = .empty ∨ (∃ n, i = .create e n) ∨ ∃ src, i = .copy e src := by
  by_cases he : i.dField? = some e
  · cases h with
    | rdblk | rdstat | rdnv | supclr | suppush | rdsup | hasvar => exact .inl hempty
    | create =>
      injection he with he
      exact .inr (.inl ⟨_, congrArg (Instr.create · _) he⟩)
    | copy =>
      injection he with he
      exact .inr (.inr ⟨_, congrArg (Instr.copy · _) he⟩)
    | destroy hlive | minbasei hlive =>
      injection he with he
      rw [he, hempty] at hlive
      cases hlive
    | rewrite hlive hrw =>
      rw [hrw.dField_eq] at he
      injection he with he
      rw [he, hempty] at hlive
      cases hlive
  · exact .inl ((h.slot_other he).trans hempty)

/-- A `LIVE` slot keeps its arity, or DESTROY empties it (R104). -/
theorem Completes.of_live {i : Instr} {s t : State} {e : SlotNo} {tb : Table} (h : Completes s i t) (hinv : s.Inv = true)
    (hlive : s.slot e = .live tb) : (∃ u, t.slot e = .live u ∧ u.n = tb.n) ∨ i = .destroy e ∧ t.slot e = .empty := by
  have hlt := lt_length_of_live hlive
  by_cases he : i.dField? = some e
  · cases h with
    | rdblk | rdstat | rdnv | supclr | suppush | rdsup | hasvar => exact .inl ⟨tb, hlive, rfl⟩
    | create hempty | copy _ hempty =>
      injection he with he
      rw [he, hlive] at hempty
      cases hempty
    | destroy =>
      injection he with he
      subst he
      exact .inr ⟨rfl, slot_setSlot_same hlt _⟩
    | minbasei hlive' =>
      injection he with he
      subst he
      obtain ⟨ht, -, -⟩ := wf_of_live hinv hlive
      cases hlive.symm.trans hlive'
      exact .inl ⟨_, slot_setTable_same hlt _, (Table.minBase_kept ht).arity⟩
    | rewrite hlive' hrw =>
      rw [hrw.dField_eq] at he
      injection he with he
      subst he
      cases hlive.symm.trans hlive'
      exact .inl ⟨_, slot_setTable_same hlt _, (hrw.kept hinv hlive).2⟩
  · exact .inl ⟨tb, (h.slot_other he).trans hlive, rfl⟩

/-- Settles O21: a command that does not complete leaves the slots alone. -/
theorem slotStateMachine : Obligations.SlotStateMachine := by
  intro i s t e hinv h
  obtain rfl | ⟨c, -, rfl⟩ | hdone := exec_cases h
  · exact ⟨.inl, fun tb hlive => .inl ⟨tb, hlive, rfl⟩⟩
  · exact ⟨.inl, fun tb hlive => .inl ⟨tb, hlive, rfl⟩⟩
  · exact ⟨hdone.of_empty, fun _ => hdone.of_live hinv⟩

end Sys2Proof.Machine
end

section
/-! Faults do not depend on the contents of tables (`spec/60_exceptions.md` R245): in states of one shape every check of a command
decides alike, because it looks at arities, at the support list and at the parameters only. -/

namespace Sys2Proof.Machine

/-- Two states with the same fault record. -/
def RecordAlike (k k' : State) : Prop := k.f = k'.f ∧ k.cause = k'.cause ∧ k.fcw = k'.fcw

/-- The fault record is as before: what every effect of a command keeps. -/
def RecordKept (s k : State) : Prop := k.f = s.f ∧ k.cause = s.cause ∧ k.fcw = s.fcw

theorem RecordKept.memWrite (v : Block) (s : State) (d : SlotNo) (b : Nat) (w : Block) :
    RecordKept s (answer v (s.memWrite d b w)) := by
  cases hd : s.slot d with
  | empty => rw [memWrite_empty hd]; exact ⟨rfl, rfl, rfl⟩
  | live t => rw [memWrite_live hd]; exact ⟨rfl, rfl, rfl⟩

section
variable {s s' : State} (h : SameShape s s')
include h

theorem SameShape.kept {k k' : State} (hk : RecordKept s k) (hk' : RecordKept s' k') : RecordAlike k k' := by
  obtain ⟨-, hf, hcause, hfcw, -, -, -⟩ := h
  obtain ⟨kf, kcause, kfcw⟩ := hk
  obtain ⟨kf', kcause', kfcw'⟩ := hk'
  exact ⟨kf.trans (hf.trans kf'.symm), kcause.trans (hcause.trans kcause'.symm), kfcw.trans (hfcw.trans kfcw'.symm)⟩

theorem SameShape.raise (c : Cause) : RecordAlike (raise c s) (raise c s') := by
  obtain ⟨-, -, -, -, -, hcmd, -⟩ := h
  exact ⟨rfl, rfl, congrArg Command.cw hcmd⟩

theorem SameShape.require {ok ok' : Bool} {c : Cause} {k k' : State} (hok : ok = ok') (hk : RecordAlike k k') :
    RecordAlike (require ok c s k) (require ok' c s' k') := by
  subst hok
  cases ok
  · exact h.raise c
  · exact hk

theorem SameShape.onLive {d : SlotNo} {k k' : Table → State} (hk : ∀ t t', t.n = t'.n → RecordAlike (k t) (k' t')) :
    RecordAlike (onLive d s k) (onLive d s' k') := by
  obtain ⟨-, -, -, -, -, -, hslots⟩ := id h
  obtain ⟨he, he'⟩ | ⟨t, t', hl, hl', hn⟩ := hslots d
  · rw [onLive_empty he, onLive_empty he']; exact h.raise _
  · rw [onLive_live hl, onLive_live hl']; exact hk t t' hn

theorem SameShape.onEmpty {d : SlotNo} {k k' : State} (hk : RecordAlike k k') :
    RecordAlike (onEmpty d s k) (onEmpty d s' k') := by
  obtain ⟨-, -, -, -, -, -, hslots⟩ := id h
  obtain ⟨he, he'⟩ | ⟨t, t', hl, hl', -⟩ := hslots d
  · rw [onEmpty_empty he, onEmpty_empty he']; exact hk
  · rw [onEmpty_live hl, onEmpty_live hl']; exact h.raise _

theorem SameShape.perform {ds : List SlotNo} {k k' t t' : State} (hk : RecordAlike k k') (ht : perform ds s k = .next t)
    (ht' : perform ds s' k' = .next t') : RecordAlike t t' := by
  obtain ⟨hcfg, hf, -, -, -, -, -⟩ := id h
  have hslots : s.hasSlot = s'.hasSlot := funext fun d => by rw [State.hasSlot, hcfg, State.hasSlot]
  injection ht with ht
  injection ht' with ht'
  rw [← ht, ← ht', hf, hslots]
  split_ifs
  · exact h.kept ⟨rfl, rfl, rfl⟩ ⟨rfl, rfl, rfl⟩
  · exact hk
  · exact h.raise _

/-- The shape of most commands: a live table, one check of it, and an effect. -/
theorem SameShape.onLive_require {d : SlotNo} {ok ok' : Table → Bool} {c : Cause} {k k' : Table → State}
    (hok : ∀ t t', t.n = t'.n → ok t = ok' t') (hk : ∀ t, RecordKept s (k t)) (hk' : ∀ t, RecordKept s' (k' t)) :
    RecordAlike (Machine.onLive d s fun t => Machine.require (ok t) c s (k t))
      (Machine.onLive d s' fun t => Machine.require (ok' t) c s' (k' t)) :=
  h.onLive fun t t' hn => h.require (hok t t' hn) (h.kept (hk t) (hk' t'))

/-- The checks of each rule, side by side in the two states. Every effect but WRBLK's leaves the record alone by definition. -/
theorem SameShape.exec_rule {i : Instr} (hi : i ≠ .rdstat) :
    ∃ k k', exec i s = Machine.perform (namedSlots i) s k ∧ exec i s' = Machine.perform (namedSlots i) s' k' ∧
      RecordAlike k k' := by
  obtain ⟨hcfg, -, -, -, hsup, -, -⟩ := id h
  have hsame : ∀ k : State, RecordKept k k := fun _ => ⟨rfl, rfl, rfl⟩
  cases i with
  | rdstat => exact absurd rfl hi
  | create d n =>
    refine ⟨_, _, exec_create d n s, exec_create d n s', h.onEmpty (h.require ?_ (h.kept (hsame s) (hsame s')))⟩
    simp only [arityAccepted, flavourAccepts, hcfg]
  | copy d src =>
    refine ⟨_, _, exec_copy d src s, exec_copy d src s', h.onLive fun t t' hn =>
      h.onEmpty (h.require ?_ (h.kept (hsame s) (hsame s')))⟩
    simp only [flavourAccepts, hcfg, hn]
  | supclr => exact ⟨_, _, rfl, rfl, h.kept (hsame s) (hsame s')⟩
  | suppush v =>
    refine ⟨_, _, exec_suppush v s, exec_suppush v s', h.require ?_ (h.kept (hsame s) (hsame s'))⟩
    rw [State.suplen, State.suplen, hsup, hcfg]
  | rdsup p =>
    refine ⟨_, _, exec_rdsup p s, exec_rdsup p s', h.require ?_ (h.kept (hsame s) (hsame s'))⟩
    rw [State.suplen, State.suplen, hsup]
  | destroy | rdnv | minbasei | nexti | shli =>
    exact ⟨_, _, rfl, rfl, h.onLive fun _ _ _ => h.kept (hsame s) (hsame s')⟩
  | wrblk d idx =>
    refine ⟨_, _, exec_wrblk d idx s, exec_wrblk d idx s', h.onLive_require (fun _ _ hn => by rw [hn])
      (fun _ => .memWrite ..) fun _ => .memWrite ..⟩
  | rdblk | hasvar | cof0i | cof1i | swapadji | swapi | flipi =>
    exact ⟨_, _, rfl, rfl, h.onLive_require (fun _ _ hn => by rw [hn]) (fun _ => hsame s) fun _ => hsame s'⟩
  | expandi =>
    exact ⟨_, _, rfl, rfl, h.onLive_require (fun _ _ hn => by rw [expandLegal, expandLegal, hn, hsup]) (fun _ => hsame s)
      fun _ => hsame s'⟩
  | extfill d src =>
    exact ⟨_, _, exec_extfill d src s, exec_extfill d src s', h.onLive fun _ _ hu =>
      h.onLive_require (fun _ _ hn => by rw [hn, hu]) (fun _ => hsame s) fun _ => hsame s'⟩

end

/-- Settles O16: RDSTAT faults in neither state, and the other commands make their checks alike. -/
theorem tableContentNeverFaults : Obligations.TableContentNeverFaults := by
  intro i s s' t t' h ht ht'
  by_cases hi : i = .rdstat
  · subst hi
    injection ht with ht
    injection ht' with ht'
    subst ht ht'
    exact h.kept ⟨rfl, rfl, rfl⟩ ⟨rfl, rfl, rfl⟩
  · obtain ⟨k, k', hk, hk', halike⟩ := h.exec_rule hi
    exact h.perform halike (hk.symm.trans ht) (hk'.symm.trans ht')

end Sys2Proof.Machine
end

section
/-! The block store commands (`spec/40_store_access.md` R101 to R116): each completes by its rule, and what the rule writes is all
that changes. -/

namespace Sys2Proof.Machine

/-! ### Frames -/

/-- An effect that leaves the list of slots alone changes no slot. -/
theorem slotsSame_of_slots {s t : State} (h : t.slots = s.slots) : SlotsSame s t :=
  fun e => slotSame_of_slot (congrArg (fun m : Memory => m.getD e.toNat .empty) h)

theorem answeredOnly_answer (v : Block) (s : State) : AnsweredOnly s (answer v s) :=
  ⟨rfl, rfl, ⟨rfl, rfl, rfl, rfl, rfl, rfl, rfl⟩, slotsSame_of_slots rfl⟩

theorem wroteSlotOnly_setSlot (s : State) (d : SlotNo) (v : Slot) : WroteSlotOnly d s (answer 0 (s.setSlot d v)) :=
  ⟨rfl, rfl, rfl, ⟨rfl, rfl, rfl, rfl, rfl, rfl, rfl⟩, fun _ he => slotSame_of_slot (slot_setSlot_other s he v)⟩

theorem recordSame_setSup (v : Block) (s : State) (l : List SupEntry) : RecordSame s (answer v (s.setSup l)) :=
  ⟨rfl, rfl, rfl, rfl, rfl, rfl, rfl⟩

/-- A slot that a ready command names exists, live or not. -/
theorem lt_length_of_ready {i : Instr} {s : State} (h : ready i s = true) {d : SlotNo} (hd : i.dField? = some d) :
    d.toNat < s.slots.length := by
  obtain ⟨hinv, -, hwf⟩ := (ready_iff i s).1 h
  obtain ⟨-, hmem, -, -⟩ := (inv_iff s).1 hinv
  rw [((Memory.wf_iff _ _).1 hmem).1]
  exact (instr_wf_iff s.cfg i).1 hwf d ((mem_namedSlots i d).2 (.inl hd))

/-! ### Slots made and emptied -/

/-- Settles O24: the two hypotheses are CREATE's checks. -/
theorem createMakesTheZeroTable : Obligations.CreateMakesTheZeroTable := by
  intro s d n hready hempty hmax hfixed
  have hdone : Completes s (.create d n) _ := .create hempty ((arityAccepted_iff s d n.toNat).2 ⟨hmax, hfixed⟩)
  exact ⟨_, hdone.exec_eq hready, slot_setTable_same (lt_length_of_ready hready rfl) _, wroteSlotOnly_setTable s d _⟩

/-- Settles O25: DESTROY's one check is that the slot is live. -/
theorem destroyEmptiesTheSlot : Obligations.DestroyEmptiesTheSlot := by
  intro s d tb hready hlive
  exact ⟨_, (Completes.destroy hlive).exec_eq hready, slot_setSlot_same (lt_length_of_live hlive) _,
    wroteSlotOnly_setSlot s d .empty⟩

/-- Settles O26: the source is live and the destination empty, so they are two slots. -/
theorem copyClonesTheTable : Obligations.CopyClonesTheTable := by
  intro s d src tb hready hsrc hempty hfixed
  have hdone : Completes s (.copy d src) _ := .copy hsrc hempty ((flavourAccepts_iff s d tb.n).2 hfixed)
  have hne : src ≠ d := by
    rintro rfl
    cases hsrc.symm.trans hempty
  exact ⟨_, hdone.exec_eq hready, slot_setTable_same (lt_length_of_ready hready rfl) _,
    (slot_setTable_other s hne _).trans hsrc, wroteSlotOnly_setTable s d _⟩

/-! ### Blocks -/

/-- Settles O27: the answer is the block, whose bits are those of the table by R14. -/
theorem rdblkAnswersTheBlock : Obligations.RdblkAnswersTheBlock := by
  intro s d idx tb hready hlive hidx
  exact ⟨_, (Completes.rdblk hlive hidx).exec_eq hready, memRead_live hlive hidx,
    fun p hp => (Table.bit_block tb idx.toNat p hp).symm, answeredOnly_answer _ s⟩

/-- One rule for the commands that rewrite the table of a live slot: they complete with the new table there and the rest as
before. -/
theorem Rewrites.exec_of_ready {i : Instr} {s : State} {d : SlotNo} {t u : Table} (h : Rewrites s i d t u)
    (hready : ready i s = true) (hlive : s.slot d = .live t) :
    ∃ t', exec i s = .next t' ∧ t'.slot d = .live u ∧ WroteSlotOnly d s t' :=
  ⟨_, (Completes.rewrite hlive h).exec_eq hready, slot_setTable_same (lt_length_of_live hlive) u,
    wroteSlotOnly_setTable s d u⟩

theorem memRead_eq_of_live {s : State} {d : SlotNo} {t : Table} (h : s.slot d = .live t) (b : Nat) :
    s.memRead d b = if b < NB t.n then some (t.block b) else none := by
  rw [State.memRead, h]

/-- Settles O28: the new table is the old one with one block set, and its other blocks read as before. -/
theorem wrblkStoresTheMaskedBlock : Obligations.WrblkStoresTheMaskedBlock := by
  intro s d idx tb hready hlive hidx
  have hwf := table_wf_of_ready hready hlive
  have hblock := Table.block_setBlock tb (b := idx.toNat) (by rwa [Table.length_of_wf hwf]) (s.cmd.wdata &&& lenMask tb.n)
  obtain ⟨t, hexec, hslot, hframe⟩ := (Rewrites.wrblk hidx).exec_of_ready hready hlive
  refine ⟨t, _, hexec, hslot, rfl, Table.setBlock_masked_wf hwf hidx _, ?_, fun b hb => ?_, hframe⟩
  · rw [memRead_live hslot hidx, hblock, if_pos rfl]
  · rw [memRead_eq_of_live hslot, memRead_eq_of_live hlive, hblock, if_neg hb]
    rfl

/-! ### Status, arity and the support list -/

/-- The fields of `STATUS`, read back from the word (R39). -/
theorem status_fields (s : State) :
    s.status.extractLsb' 0 1 = BitVec.ofBool s.r ∧ s.status.extractLsb' 1 1 = BitVec.ofBool s.f ∧
    s.status.extractLsb' 2 2 = 0 ∧ s.status.extractLsb' 4 4 = s.cause.code ∧
    s.status.extractLsb' 8 8 = BitVec.ofNat 8 s.suplen ∧ s.status.extractLsb' 16 16 = 0 ∧
    s.status.extractLsb' 32 32 = s.fcw := by
  unfold State.status
  simp only [BitVec.extractLsb'_append_eq_ite]
  simp

/-- Settles O29: RDSTAT has no check, and its answer is the word of `status_fields`. -/
theorem rdstatAnswersTheStatus : Obligations.RdstatAnswersTheStatus := by
  intro s
  obtain ⟨hr, hf, hlow, hcause, hlen, hmid, hfcw⟩ := status_fields s
  exact ⟨_, rfl, hr, hf, hlow, hcause, hlen, hmid, hfcw, answeredOnly_answer s.status s⟩

theorem zext64_toNat {v : Nat} (h : v < 2 ^ 64) : (zext64 v).toNat = v := by
  rw [zext64, BitVec.toNat_ofNat, Nat.mod_eq_of_lt h]

/-- Settles O30: an arity is at most 22, so the answer holds it. -/
theorem rdnvAnswersTheArity : Obligations.RdnvAnswersTheArity := by
  intro s d tb hready hlive
  have hn := arity_le_of_ready hready hlive
  exact ⟨_, (Completes.rdnv hlive).exec_eq hready, zext64_toNat (by omega), answeredOnly_answer _ s⟩

/-- Settles O31: SUPCLR has no check of its own. -/
theorem supclrEmptiesTheList : Obligations.SupclrEmptiesTheList := by
  intro s hready
  exact ⟨_, Completes.supclr.exec_eq hready, rfl, rfl, rfl, recordSame_setSup 0 s [], slotsSame_of_slots rfl⟩

/-- Settles O32: the check leaves room for the entry. -/
theorem suppushAppendsTheEntry : Obligations.SuppushAppendsTheEntry := by
  intro s v hready hlen
  exact ⟨_, (Completes.suppush hlen).exec_eq hready, rfl, rfl, rfl, recordSame_setSup 0 s _, slotsSame_of_slots rfl⟩

/-- Settles O33: an entry has 8 bits, so the answer holds it. -/
theorem rdsupAnswersTheEntry : Obligations.RdsupAnswersTheEntry := by
  intro s p v hready hentry
  obtain ⟨hlen, -⟩ := List.getElem?_eq_some_iff.1 hentry
  have hget : s.sup.getD p.toNat 0 = v := by rw [List.getD_eq_getElem?_getD, hentry, Option.getD_some]
  have hv := v.isLt
  refine ⟨_, (Completes.rdsup hlen).exec_eq hready, ?_, answeredOnly_answer _ s⟩
  rw [answer_rdata, hget, zext64_toNat (by omega)]

end Sys2Proof.Machine
end

section
/-! The checks that fail (`spec/60_exceptions.md` R234, R235, R237). -/

namespace Sys2Proof.Machine

/-- Settles O53: CREATE looks at the destination first, COPY after the source, which is live. -/
theorem liveSlotFaults : Obligations.LiveSlotFaults := by
  intro s d tb hf hlive
  refine ⟨fun n hwf => ?_, fun src tb' hwf hsrc => ?_⟩
  · rw [exec_create, perform_ok hf ((instr_wf_iff _ _).1 hwf), onEmpty_live hlive, raise_eq_faulted]
  · rw [exec_copy, perform_ok hf ((instr_wf_iff _ _).1 hwf), onLive_live hsrc, onEmpty_live hlive, raise_eq_faulted]

/-- Settles O54: an arity that is too large or not the slot's is not accepted. -/
theorem arityFaults : Obligations.ArityFaults := by
  intro s d hf hempty
  refine ⟨fun n hwf hbad => ?_, fun src tb f hwf hsrc hfixed hne => ?_⟩
  · have hn : arityAccepted s d n.toNat = false := by
      rw [Bool.eq_false_iff, ne_eq, arityAccepted_iff]
      rintro ⟨hmax, hflavour⟩
      obtain hlt | ⟨f, hfixed, hne⟩ := hbad
      · omega
      · exact hne (hflavour f hfixed)
    rw [exec_create, perform_ok hf ((instr_wf_iff _ _).1 hwf), onEmpty_empty hempty, hn, require_false, raise_eq_faulted]
  · have hn : flavourAccepts s d tb.n = false := by
      rw [Bool.eq_false_iff, ne_eq, flavourAccepts_iff]
      exact fun hflavour => hne (hflavour f hfixed)
    rw [exec_copy, perform_ok hf ((instr_wf_iff _ _).1 hwf), onLive_live hsrc, onEmpty_empty hempty, hn, require_false,
      raise_eq_faulted]

/-- Settles O56: each command that takes an index compares it with the arity of the table it finds. -/
theorem variableRangeFaults : Obligations.VariableRangeFaults := by
  intro s d tb hf hd hlive
  refine ⟨fun v hv => ?_, fun v hv => ?_, fun v w hvw => ?_, fun hsup => ?_⟩
  · have hok : decide (v.toNat < tb.n) = false := decide_eq_false (Nat.not_lt.2 hv)
    exact ⟨fault_of_check (exec_hasvar d v s) hf hd hlive hok, fault_of_check (exec_cof0i d v s) hf hd hlive hok,
      fault_of_check (exec_cof1i d v s) hf hd hlive hok, fault_of_check (exec_flipi d v s) hf hd hlive hok⟩
  · exact fault_of_check (exec_swapadji d v s) hf hd hlive (decide_eq_false (Nat.not_lt.2 hv))
  · have hok : (decide (v.toNat < tb.n) && decide (w.toNat < tb.n)) = false := by
      rw [← Bool.decide_and]
      exact decide_eq_false (by omega)
    exact fault_of_check (exec_swapi d v w s) hf hd hlive hok
  · have hok : expandLegal tb s.sup = false := by
      rw [Bool.eq_false_iff, ne_eq, expandLegal_iff]
      rintro ⟨hlen, hentries⟩
      obtain hlong | ⟨v, hmem, hv⟩ := hsup
      · exact absurd hlen (Nat.not_le.2 hlong)
      · exact absurd (hentries v hmem) (Nat.not_lt.2 hv)
    exact fault_of_check (exec_expandi d s) hf hd hlive hok

end Sys2Proof.Machine
end

section
/-! The engine commands bit by bit (`spec/41_cofactor.md` R131, `spec/42_permutation.md` R156 and R163, `spec/43_support_min.md`
R185, `spec/44_extend.md` R196): each writes its table function's table, which the laws compare with the functional definition. -/

namespace Sys2Proof.Machine

/-- Settles O34: the flag is the word algorithm's, which `Table.hasVar_iff` compares with R132. -/
theorem hasvarTestsDependence : Obligations.HasvarTestsDependence := by
  intro s d v tb hready hlive hv
  refine ⟨_, (Completes.hasvar hlive hv).exec_eq hready, Table.hasVar_iff (table_wf_of_ready hready hlive) hv, ?_, rfl,
    ⟨rfl, rfl, rfl, rfl, rfl, rfl, rfl⟩, slotsSame_of_slots rfl⟩
  rw [answer_rdata, answer_r, setR_r]
  cases tb.hasVar v.toNat <;> rfl

/-- Settles O39: the command's table is `Table.swap`, which `Table.swap_isSwap` compares with R157 for every legal pair. -/
theorem swapiExchangesVariables : Obligations.SwapiExchangesVariables := by
  intro s d v w tb hready hlive hv hw
  obtain ⟨t, hexec, hslot, hframe⟩ := (Rewrites.swapi hv hw).exec_of_ready hready hlive
  exact ⟨t, _, hexec, hslot, Table.swap_isSwap (table_wf_of_ready hready hlive) hv hw, hframe⟩

/-- Settles O40: the command's table is `Table.flip`, which `Table.flip_isFlip` compares with R164. -/
theorem flipiNegatesTheInput : Obligations.FlipiNegatesTheInput := by
  intro s d v tb hready hlive hv
  obtain ⟨t, hexec, hslot, hframe⟩ := (Rewrites.flipi hv).exec_of_ready hready hlive
  exact ⟨t, _, hexec, hslot, Table.flip_isFlip (table_wf_of_ready hready hlive) hv, hframe⟩

/-- Settles O45: the command's table is the source's `Table.extend`, which `Table.extend_isExt` compares with R197. -/
theorem extfillReplicatesTheSource : Obligations.ExtfillReplicatesTheSource := by
  intro s d src tb old hready hold htb hn
  obtain ⟨t, hexec, hslot, hframe⟩ := (Rewrites.extfill htb hn).exec_of_ready hready hold
  exact ⟨t, _, hexec, hslot, Table.extend_isExt (table_wf_of_ready hready htb) hn, hframe⟩

/-! ### EXPANDI, swap by swap -/

/-- The table when the swaps of the positions from `p` on have been made, the last position first (R185). -/
def expandStage (t : Table) (sup : List SupEntry) (p : Nat) : Table :=
  (sup.zipIdx.drop p).foldr (fun e u => u.swap e.2 e.1.toNat) t

theorem expandStage_zero (t : Table) (sup : List SupEntry) : expandStage t sup 0 = t.expand sup := rfl

theorem expandStage_length (t : Table) (sup : List SupEntry) : expandStage t sup sup.length = t := by
  rw [expandStage, List.drop_eq_nil_of_le (List.length_zipIdx.le), List.foldr_nil]

theorem expandStage_of_entry (t : Table) {sup : List SupEntry} {p : Nat} {v : SupEntry} (h : sup[p]? = some v) :
    expandStage t sup p = (expandStage t sup (p + 1)).swap p v.toNat := by
  obtain ⟨hp, hv⟩ := List.getElem?_eq_some_iff.1 h
  have hdrop : sup.zipIdx.drop p = (v, p) :: sup.zipIdx.drop (p + 1) := by
    rw [List.drop_eq_getElem_cons (List.length_zipIdx.symm ▸ hp), List.getElem_zipIdx, Nat.zero_add, hv]
  rw [expandStage, hdrop]
  rfl

/-- What EXPANDI's check says of the entries with their positions. -/
theorem zipIdx_lt_of_legal {t : Table} {sup : List SupEntry} (hs : expandLegal t sup = true) :
    ∀ e ∈ sup.zipIdx, e.2 < t.n ∧ e.1.toNat < t.n := by
  obtain ⟨hlen, hentries⟩ := (expandLegal_iff t sup).1 hs
  intro e hmem
  obtain ⟨-, hlt, heq⟩ := List.mem_zipIdx (x := e.1) (i := e.2) hmem
  exact ⟨by omega, hentries _ (heq ▸ List.getElem_mem _)⟩

theorem expandStage_kept {t : Table} (h : t.wf = true) {sup : List SupEntry} (hs : expandLegal t sup = true) (p : Nat) :
    (expandStage t sup p).wf = true ∧ (expandStage t sup p).n = t.n :=
  foldr_swap_kept h _ fun e hmem => zipIdx_lt_of_legal hs e (List.mem_of_mem_drop hmem)

/-- Settles O43: the stages are `expandStage`, from the table of the slot at the end of the list to `Table.expand` at its head. -/
theorem expandiPerformsTheSwaps : Obligations.ExpandiPerformsTheSwaps := by
  intro s d tb hready hlive hlen hentries
  have hlegal := (expandLegal_iff tb s.sup).2 ⟨hlen, hentries⟩
  obtain ⟨t, hexec, hslot, hframe⟩ := (Rewrites.expandi hlegal).exec_of_ready hready hlive
  refine ⟨t, expandStage tb s.sup, hexec, expandStage_length tb s.sup, ?_, fun p v hentry => ?_, hframe⟩
  · rw [hslot, expandStage_zero]
  · obtain ⟨hwf, hn⟩ := expandStage_kept (table_wf_of_ready hready hlive) hlegal (p + 1)
    obtain ⟨hp, hv⟩ := List.getElem?_eq_some_iff.1 hentry
    rw [expandStage_of_entry tb hentry]
    exact Table.swap_isSwap hwf (hn.symm ▸ Nat.lt_of_lt_of_le hp hlen) (hn.symm ▸ hentries v (hv ▸ List.getElem_mem hp))

end Sys2Proof.Machine
end

section
/-! Tables as numbers (`spec/00_scope.md` R15; `spec/45_shift_enum.md` R211 to R217): the table of a value has the value's binary
digits for bits, so what NEXTI and SHLI do to the value is what they do to the table. -/

namespace Sys2Proof.Machine

/-! ### The table of a value -/

@[simp] theorem tbl_n (n v : Nat) : (tbl n v).n = n := rfl

theorem tbl_block {n b : Nat} (hb : b < NB n) (v : Nat) : (tbl n v).block b = BitVec.ofNat 64 (v >>> (64 * b)) := by
  simp only [Table.block, tbl, List.getD_eq_getElem?_getD, List.getElem?_map, List.getElem?_range hb, Option.map_some,
    Option.getD_some]

theorem tbl_length (n v : Nat) : (tbl n v).blk.length = NB n := by
  rw [tbl, List.length_map, List.length_range]

/-- All blocks together hold at least `LEN(n)` bits. -/
theorem LEN_le_blocks (n : Nat) : LEN n ≤ 64 * NB n := by
  by_cases hn : n ≤ 6
  · rw [NB_of_le hn]
    exact LEN_le hn
  · exact (LEN_eq (by omega)).le

theorem tbl_bit {n v : Nat} (hv : v < 2 ^ LEN n) (k : Nat) : (tbl n v).bit k = v.testBit k := by
  have hk : k % 64 < 64 := Nat.mod_lt _ (by norm_num)
  by_cases hb : k / 64 < NB n
  · rw [Table.bit, tbl_block hb, BitVec.getLsbD_ofNat, decide_eq_true hk, Bool.true_and, Nat.testBit_shiftRight]
    congr 1
    omega
  · have hlen := LEN_le_blocks n
    rw [Table.bit, Table.block, List.getD_eq_default _ _ (by rw [tbl_length]; omega),
      testBit_of_lt_two_pow hv (show LEN n ≤ k by omega)]
    exact BitVec.getLsbD_zero

theorem tbl_val {n v : Nat} (hv : v < 2 ^ LEN n) : (tbl n v).val = v :=
  Nat.eq_of_testBit_eq fun k => by rw [Table.val_testBit, tbl_bit hv]

theorem tbl_wf {n v : Nat} (hv : v < 2 ^ LEN n) : (tbl n v).wf = true :=
  Table.wf_of_val_lt (tbl_length n v) (by rw [tbl_val hv]; exact hv)

/-- A table is the table of its value (R17). -/
theorem Table.eq_tbl {t : Table} (h : t.wf = true) {n v : Nat} (hn : t.n = n) (hv : t.val = v) : t = tbl n v := by
  subst hn hv
  have hlt := Table.val_lt h
  exact Table.ext_val h (tbl_wf hlt) rfl (tbl_val hlt).symm

/-- Settles O47: both directions compare bits, those of the value with those of the table. -/
theorem valueAndTableInverse : Obligations.ValueAndTableInverse :=
  ⟨fun t h => ⟨Table.val_lt h, (Table.eq_tbl h rfl rfl).symm, Table.val_testBit t⟩,
    fun _ _ hv => ⟨rfl, tbl_wf hv, tbl_val hv⟩⟩

/-! ### NEXTI -/

theorem Table.next_eq_tbl {t : Table} (h : t.wf = true) : t.next = tbl t.n ((t.val + 1) % 2 ^ LEN t.n) := by
  obtain ⟨hn, hwf, hval⟩ := Table.next_spec h
  exact Table.eq_tbl hwf hn hval

/-- Settles O48: the command's table is `Table.next`, which is the table of its value. -/
theorem nextiAddsOne : Obligations.NextiAddsOne := by
  intro s d tb hready hlive
  obtain ⟨t, hexec, hslot, hframe⟩ := Rewrites.nexti.exec_of_ready hready hlive
  exact ⟨t, hexec, hslot.trans (congrArg _ (Table.next_eq_tbl (table_wf_of_ready hready hlive))), hframe⟩

/-- A state stays ready as long as no command faults: the invariant is kept, and nobody writes the parameters. -/
theorem ready_of_exec {i i' : Instr} {s t : State} (h : exec i s = .next t) (hready : ready i s = true) (hf : t.f = false)
    (hwf : i'.wf s.cfg = true) : ready i' t = true := by
  obtain ⟨hinv, -, -⟩ := (ready_iff i s).1 hready
  exact (ready_iff i' t).2 ⟨exec_inv hinv h, hf, (exec_host_same h).1.symm ▸ hwf⟩

/-- One NEXTI on the table of a value: the next value, in a state that is ready for another. -/
theorem exec_nexti_tbl {s : State} {d : SlotNo} {n v : Nat} (hready : ready (.nexti d) s = true)
    (hlive : s.slot d = .live (tbl n (v % 2 ^ LEN n))) :
    ∃ t, exec (.nexti d) s = .next t ∧ ready (.nexti d) t = true ∧ t.slot d = .live (tbl n ((v + 1) % 2 ^ LEN n)) := by
  obtain ⟨t, hexec, hslot, -, -, -, ⟨hf, -⟩, -⟩ := nextiAddsOne s d _ hready hlive
  obtain ⟨-, hf', hwf⟩ := (ready_iff _ s).1 hready
  refine ⟨t, hexec, ready_of_exec hexec hready (hf.trans hf') hwf, ?_⟩
  rw [hslot, tbl_n, tbl_val (Nat.mod_lt _ (Nat.two_pow_pos _)), Nat.mod_add_mod]

theorem repeatExec_succ {i : Instr} {s u : State} (h : exec i s = .next u) (j : Nat) :
    repeatExec i (j + 1) s = repeatExec i j u := by
  rw [repeatExec, h]

theorem repeatExec_nexti_tbl {d : SlotNo} {n : Nat} (j : Nat) {s : State} {v : Nat} (hready : ready (.nexti d) s = true)
    (hlive : s.slot d = .live (tbl n (v % 2 ^ LEN n))) :
    ∃ t, repeatExec (.nexti d) j s = .next t ∧ t.slot d = .live (tbl n ((v + j) % 2 ^ LEN n)) := by
  induction j generalizing s v with
  | zero => exact ⟨s, rfl, hlive⟩
  | succ j ih =>
    obtain ⟨u, hexec, hready', hlive'⟩ := exec_nexti_tbl hready hlive
    obtain ⟨t, hrun, hslot⟩ := ih hready' hlive'
    exact ⟨t, (repeatExec_succ hexec j).trans hrun, by rw [hslot, Nat.add_right_comm, Nat.add_assoc]⟩

theorem Table.zero_eq_tbl (n : Nat) : Table.zero n = tbl n 0 :=
  Table.eq_tbl (Table.zero_wf n) rfl
    (Nat.eq_of_testBit_eq fun k => by rw [Table.val_testBit, Table.zero_bit, Nat.zero_testBit])

/-- Settles O49, by induction on the number of commands; after `2^LEN(n)` of them the remainder is 0 again. -/
theorem nextiEnumerates : Obligations.NextiEnumerates := by
  intro s d n j hready hlive
  rw [Table.zero_eq_tbl, ← Nat.zero_mod (2 ^ LEN n)] at hlive
  obtain ⟨t, hrun, hslot⟩ := repeatExec_nexti_tbl j hready hlive
  rw [Nat.zero_add] at hslot
  refine ⟨t, hrun, hslot, ?_⟩
  rintro rfl
  rw [hslot, Nat.mod_self, Table.zero_eq_tbl]

/-! ### SHLI -/

/-- R214 as a function of the value: the shift multiplies by `2^sh` and drops what leaves the table. -/
theorem Table.IsShl.val_eq {t u : Table} {sh : Nat} (h : t.IsShl sh u) : u.val = t.val * 2 ^ sh % 2 ^ LEN t.n := by
  refine Nat.eq_of_testBit_eq fun k => ?_
  rw [Table.val_testBit, Nat.testBit_mod_two_pow, Nat.testBit_mul_two_pow, Table.val_testBit]
  by_cases hk : k < LEN t.n
  · rw [h.bit_eq hk, decide_eq_true hk, Bool.true_and]
  · rw [Table.bit_of_ge h.wf_eq_true (by rw [h.n_eq]; omega), decide_eq_false hk, Bool.false_and]

theorem mul_two_pow_mod_eq_zero {a m n : Nat} (h : n ≤ m) : a * 2 ^ m % 2 ^ n = 0 :=
  Nat.mod_eq_zero_of_dvd ((Nat.pow_dvd_pow 2 h).mul_left a)

/-- Settles O50: bit by bit by `Table.shl_isShl`, and as a value by `Table.IsShl.val_eq`, where a shift by `LEN(n)` or more leaves
nothing below `2^LEN(n)`. -/
theorem shliShiftsTheVector : Obligations.ShliShiftsTheVector := by
  intro s d tb hready hlive
  have hshl := Table.shl_isShl (table_wf_of_ready hready hlive) s.cmd.wdata.toNat
  obtain ⟨t, hexec, hslot, hframe⟩ := Rewrites.shli.exec_of_ready hready hlive
  refine ⟨t, _, hexec, hslot, hshl, Table.eq_tbl hshl.wf_eq_true hshl.n_eq ?_, hframe⟩
  rw [hshl.val_eq]
  split_ifs with hle
  · exact mul_two_pow_mod_eq_zero hle
  · rfl

end Sys2Proof.Machine
end

section
/-! The pseudo-instructions (`spec/30_encoding.md` R92): two commands in a row, each decoded from the word that the encoder gave
it and performed on the port lines. -/

namespace Sys2Proof.Machine

/-- A command as the host presents it: its encoded word with a data operand (R80, R91). -/
def presented (i : Instr) (w : Block) : Command := { cw := encode i, wdata := w }

theorem expandPseudo_eq (p : Pseudo) :
    expandPseudo p =
      [.command (presented (pseudoCommands p).1 0), .command (presented (pseudoCommands p).2.1 (pseudoCommands p).2.2)] := rfl

/-- The encoded word of a command on the port lines is performed as that command. -/
theorem performWord_encode {s : State} {i : Instr} (h : s.cmd.cw = encode i) : performWord s = exec i s :=
  performWord_of_decode (h ▸ decodeOfEncode i)

theorem step_presented {s u : State} {i : Instr} {w : Block} {rest : List Event} (hv : s.cfg.valid = true)
    (hp : s.pending = .command (presented i w) :: rest) (h : exec i (present (presented i w) rest s) = .next u) :
    step s = .next (recordAnswer u) :=
  step_of_command hv hp ((performWord_encode rfl).trans h)

/-- What a step at a presented command leaves: the rest of the host's list, and every slot that the command does not name with
its `d` field. -/
theorem step_presented_same {s t : State} {i : Instr} {w : Block} {rest : List Event}
    (hp : s.pending = .command (presented i w) :: rest) (h : step s = .next t) :
    t.pending = rest ∧ ∀ e, i.dField? ≠ some e → t.slot e = s.slot e := by
  obtain ⟨-, ⟨hp', -⟩ | ⟨_, hp', -⟩ | ⟨c, rest', u, hp', hu, rfl⟩⟩ := step_cases h
  · cases hp.symm.trans hp'
  · cases hp.symm.trans hp'
  · obtain ⟨hc, hrest⟩ := List.cons.inj (hp.symm.trans hp')
    subst hrest
    rw [performWord_encode (congrArg Command.cw (Event.command.inj hc)).symm] at hu
    obtain ⟨-, -, hpending, -⟩ := exec_host_same hu
    exact ⟨hpending, fun e he => exec_slot_other (s := present c rest s) (t := u) hu he⟩

/-- Both commands of a pseudo-instruction name its destination with their `d` field. -/
theorem pseudoCommands_dField (p : Pseudo) :
    (pseudoCommands p).1.dField? = some (pseudoDest p) ∧ (pseudoCommands p).2.1.dField? = some (pseudoDest p) := by
  cases p <;> exact ⟨rfl, rfl⟩

/-- Settles O59: neither step changes the slot. -/
theorem pseudoKeepsTheSource : Obligations.PseudoKeepsTheSource := by
  intro p s t e hp hrun he
  obtain ⟨hfirst, hsecond⟩ := pseudoCommands_dField p
  rw [expandPseudo_eq] at hp
  have hne : some (pseudoDest p) ≠ some e := fun hc => he (Option.some.inj hc).symm
  obtain ⟨u, hstep, hrun'⟩ := runSteps_succ hrun
  obtain ⟨t', hstep', hdone⟩ := runSteps_succ hrun'
  cases hdone
  obtain ⟨hp', hslot⟩ := step_presented_same hp hstep
  obtain ⟨-, hslot'⟩ := step_presented_same hp' hstep'
  exact slotSame_of_slot ((hslot' e (hsecond ▸ hne)).trans (hslot e (hfirst ▸ hne)))

theorem runSteps_two {s t u : State} (h : step s = .next t) (h' : step t = .next u) : runSteps 2 s = .next u := by
  rw [runSteps, h]
  show runSteps 1 t = .next u
  rw [runSteps, h']
  rfl

/-- Settles O60: COPY makes `Td` hold the table of `Ts` in a state that is ready for COF0I, which then rewrites `Td`. -/
theorem pureCofactorCopiesFirst : Obligations.PureCofactorCopiesFirst := by
  intro s d src v tb hready hsrc hempty hfixed hv hp
  obtain ⟨hinv, hf, hwf⟩ := (ready_iff _ s).1 hready
  obtain ⟨hvalid, -, -, -⟩ := (inv_iff s).1 hinv
  have hne : src ≠ d := by
    rintro rfl
    cases hsrc.symm.trans hempty
  have hwf' : (Instr.cof0i d v).wf s.cfg = true :=
    (instr_wf_iff _ _).2 fun e he => (instr_wf_iff _ _).1 hwf e (List.mem_cons.2 (.inl (List.mem_singleton.1 he)))
  obtain ⟨s1, hcopy, hd1, hsrc1, hrdata1, -, -, ⟨hf1, -, -, hcfg1, -, hpending1, houtputs1⟩, -⟩ := copyClonesTheTable
    (present (presented (.copy d src) 0) [.command (presented (.cof0i d v) 0)] s) d src tb hready hsrc hempty hfixed
  have hready1 : ready (.cof0i d v) s1 = true := ready_of_exec hcopy hready (hf1.trans hf) hwf'
  obtain ⟨s2, u, hcof, hd2, hu, hrdata2, -, -, ⟨-, -, -, -, -, hpending2, houtputs2⟩, hother2⟩ := cofZeroTakesTheCofactor
    (present (presented (.cof0i d v) 0) [] (recordAnswer s1)) d v tb hready1 hd1 hv
  have hstep1 : step s = .next (recordAnswer s1) := step_presented hvalid hp hcopy
  have hstep2 : step (recordAnswer s1) = .next (recordAnswer s2) := step_presented (hcfg1 ▸ hvalid) hpending1 hcof
  have houtputs : (recordAnswer s2).outputs = s.outputs ++ [0] ++ [0] := by
    rw [recordAnswer_outputs, houtputs2, hrdata2, present_outputs, recordAnswer_outputs, houtputs1, hrdata1, present_outputs]
  have hsrc2 : s2.slot src = s1.slot src := (hother2 src hne).1
  exact ⟨_, u, runSteps_two hstep1 hstep2, hd2, hu, hsrc2.trans hsrc1, hpending2, houtputs.trans (List.append_assoc ..)⟩

end Sys2Proof.Machine
end

section
/-! MINBASEI (`spec/43_support_min.md` R181, R182). The scan has met the indices below `m`: the variables it recorded stand at the
lowest positions, those it passed over no longer matter, and from `m` on every variable stands where it stood. -/

namespace Sys2Proof.Machine

/-! ### Indices that differ where a table does not look -/

theorem exists_bit_replaced (k i : Nat) (b : Bool) :
    ∃ k' : Nat, ∀ q, k'.testBit q = if q = i then b else k.testBit q := by
  cases b
  · refine ⟨idxClear k i, fun q => ?_⟩
    rw [testBit_idxClear]
    by_cases hq : q = i <;> simp [hq]
  · refine ⟨idxSet k i, fun q => ?_⟩
    rw [testBit_idxSet]
    by_cases hq : q = i <;> simp [hq]

section
variable {t : Table} (h : t.wf = true)
include h

theorem Table.bit_eq_of_differ_at {i : Nat} (hi : i < t.n) (hv : t.hasVar i = false) {a b : Nat} (ha : a < LEN t.n)
    (hab : ∀ q, q ≠ i → a.testBit q = b.testBit q) : t.bit a = t.bit b := by
  by_cases hbit : a.testBit i = b.testBit i
  · have heq : a = b := Nat.eq_of_testBit_eq fun q => by
      by_cases hq : q = i
      · rw [hq, hbit]
      · exact hab q hq
    rw [heq]
  · have heq : b = idxFlip a i := Nat.eq_of_testBit_eq fun q => by
      rw [testBit_idxFlip]
      by_cases hq : q = i
      · rw [hq, decide_eq_true rfl, Bool.xor_true]
        exact Bool.eq_not.2 (Ne.symm hbit)
      · rw [decide_eq_false hq, Bool.xor_false, hab q hq]
    rw [heq, (Table.hasVar_eq_false_iff h hi).1 hv a ha]

/-- A table that depends on variables below `c` only looks at the bits below `c` only. -/
theorem Table.bit_eq_of_low {c : Nat} (hc : c ≤ t.n) (hhigh : ∀ v, c ≤ v → v < t.n → t.hasVar v = false) {a b : Nat}
    (ha : a < LEN t.n) (hb : b < LEN t.n) (hab : ∀ q, q < c → a.testBit q = b.testBit q) : t.bit a = t.bit b := by
  induction hc using Nat.decreasingInduction generalizing a with
  | self =>
    refine congrArg t.bit (Nat.eq_of_testBit_eq fun q => ?_)
    by_cases hq : q < t.n
    · exact hab q hq
    · rw [testBit_of_lt_two_pow ha (by omega), testBit_of_lt_two_pow hb (by omega)]
  | of_succ c hlt ih =>
    obtain ⟨a', ha'⟩ := exists_bit_replaced a c (b.testBit c)
    have hdiffer : t.bit a = t.bit a' := Table.bit_eq_of_differ_at h hlt (hhigh c le_rfl hlt) ha fun q hq => by
      rw [ha', if_neg hq]
    have hlt' : a' < LEN t.n := lt_two_pow_of_bits fun q hq => by
      rw [ha', if_neg (by omega), testBit_of_lt_two_pow ha hq]
    refine hdiffer.trans (ih (fun v hv => hhigh v (by omega)) hlt' fun q hq => ?_)
    rw [ha']
    split_ifs with hqc
    · rw [hqc]
    · exact hab q (by omega)

theorem Table.bit_mod_two_pow_eq {c : Nat} (hc : c ≤ t.n) (hhigh : ∀ v, c ≤ v → v < t.n → t.hasVar v = false) {k : Nat}
    (hk : k < LEN t.n) : t.bit k = t.bit (k % 2 ^ c) :=
  Table.bit_eq_of_low h hc hhigh hk ((Nat.mod_le _ _).trans_lt hk) fun q hq => by
    rw [Nat.testBit_mod_two_pow, decide_eq_true hq, Bool.true_and]

end

/-! ### The invariant of the scan -/

/-- What MINBASEI's scan of `t` has done after the indices below `m`. In `role`, an index `k'` of `t` corresponds to an index `k`
of the new table; positions between the length of the list and `m` are free, because the new table does not look at them. -/
structure ScanDone (t : Table) (m : Nat) (acc : Table × List SupEntry) : Prop where
  sorted : (acc.2.map fun v => v.toNat).Pairwise (· < ·)
  support : ∀ v, v < m → (v ∈ acc.2.map (fun x => x.toNat) ↔ t.hasVar v = true)
  low : ∀ v, v < m → (acc.1.hasVar v = true ↔ v < acc.2.length)
  high : ∀ v, m ≤ v → v < t.n → acc.1.hasVar v = t.hasVar v
  role : ∀ k k', k < LEN t.n → k' < LEN t.n → (∀ p v, acc.2[p]? = some v → k'.testBit v.toNat = k.testBit p) →
    (∀ q, m ≤ q → k'.testBit q = k.testBit q) → acc.1.bit k = t.bit k'
  ones : acc.1.ones = t.ones

theorem scanDone_start (t : Table) : ScanDone t 0 (t, []) where
  sorted := .nil
  support _ hv := absurd hv (Nat.not_lt_zero _)
  low _ hv := absurd hv (Nat.not_lt_zero _)
  high _ _ _ := rfl
  role _ _ _ _ _ hq := congrArg t.bit (Nat.eq_of_testBit_eq fun q => (hq q (Nat.zero_le q)).symm)
  ones := rfl

/-- The dependences after the swap of a turn that records `m`. -/
theorem ScanKept.hasVar_swap {n m v : Nat} {acc : Table × List SupEntry} (hkept : ScanKept n m acc) (hm : m < n) (hv : v < n) :
    (acc.1.swap acc.2.length m).hasVar v = acc.1.hasVar (Equiv.swap acc.2.length m v) := by
  have hn := hkept.arity
  have hlen := hkept.length
  exact Table.hasVar_swap hkept.wf (by omega) (by omega) (hn.symm ▸ hv)

section
variable {t : Table} {m : Nat} {acc : Table × List SupEntry} (hkept : ScanKept t.n m acc) (hdone : ScanDone t m acc)
  (hm : m < t.n)
include hkept hdone hm

/-- A turn at a variable that the table does not depend on passes over it. -/
theorem ScanDone.passOver (hv : acc.1.hasVar m = false) : ScanDone t (m + 1) acc where
  sorted := hdone.sorted
  support v hlt := by
    obtain hlt | rfl := Nat.lt_succ_iff_lt_or_eq.1 hlt
    · exact hdone.support v hlt
    · rw [← hdone.high v le_rfl hm, hv]
      refine iff_of_false (fun hmem => ?_) Bool.false_ne_true
      obtain ⟨x, hx, hxv⟩ := List.mem_map.1 hmem
      exact absurd (hkept.entries x hx) (by omega)
  low v hlt := by
    obtain hlt | rfl := Nat.lt_succ_iff_lt_or_eq.1 hlt
    · exact hdone.low v hlt
    · rw [hv]
      exact iff_of_false Bool.false_ne_true (Nat.not_lt.2 hkept.length)
  high v hge := hdone.high v (by omega)
  role k k' hk hk' hentries hq := by
    have hn := hkept.arity
    have hlen := hkept.length
    obtain ⟨j, hj⟩ := exists_bit_replaced k m (k'.testBit m)
    have hjlt : j < LEN t.n := lt_two_pow_of_bits fun q hq => by
      rw [hj, if_neg (by omega), testBit_of_lt_two_pow hk hq]
    have hkj : acc.1.bit k = acc.1.bit j := Table.bit_eq_of_differ_at hkept.wf (hn.symm ▸ hm) hv (hn.symm ▸ hk)
      fun q hq => by rw [hj, if_neg hq]
    refine hkj.trans (hdone.role j k' hjlt hk' (fun p v hpv => ?_) fun q hqm => ?_)
    · obtain ⟨hp, -⟩ := List.getElem?_eq_some_iff.1 hpv
      rw [hj, if_neg (by omega), hentries p v hpv]
    · rw [hj]
      split_ifs with hqm'
      · rw [hqm']
      · exact hq q (by omega)
  ones := hdone.ones

theorem ScanDone.low_swap (hv : acc.1.hasVar m = true) {v : Nat} (hlt : v < m + 1) :
    (acc.1.swap acc.2.length m).hasVar v = true ↔ v < acc.2.length + 1 := by
  have hlen := hkept.length
  rw [hkept.hasVar_swap hm (by omega), Equiv.swap_apply_def]
  split_ifs with hvk hvm
  · exact iff_of_true hv (by omega)
  · rw [hdone.low _ (by omega)]
    omega
  · rw [hdone.low v (by omega)]
    omega

theorem ScanDone.role_swap {e : SupEntry} (he : e.toNat = m) {k k' : Nat} (hk : k < LEN t.n) (hk' : k' < LEN t.n)
    (hentries : ∀ p v, (acc.2 ++ [e])[p]? = some v → k'.testBit v.toNat = k.testBit p)
    (hq : ∀ q, m + 1 ≤ q → k'.testBit q = k.testBit q) : (acc.1.swap acc.2.length m).bit k = t.bit k' := by
  have hn := hkept.arity
  have hlen := hkept.length
  have hswap := Table.swap_isSwap hkept.wf (show acc.2.length < acc.1.n by omega) (show m < acc.1.n by omega)
  have hklt : idxExchange k acc.2.length m < LEN t.n := (below_idxExchange (by omega) hm).lt k hk
  refine (hswap.bit_eq (hn.symm ▸ hk)).trans (hdone.role _ k' hklt hk' (fun p v hpv => ?_) fun q hqm => ?_)
  · obtain ⟨hp, -⟩ := List.getElem?_eq_some_iff.1 hpv
    rw [testBit_idxExchange_eq_swap, Equiv.swap_apply_of_ne_of_ne (by omega) (by omega)]
    exact hentries p v ((List.getElem?_append_left hp).trans hpv)
  · rw [testBit_idxExchange_eq_swap]
    obtain hgt | rfl := hqm.lt_or_eq
    · rw [Equiv.swap_apply_of_ne_of_ne (by omega) (by omega)]
      exact hq q hgt
    · rw [Equiv.swap_apply_right, ← hentries acc.2.length e List.getElem?_concat_length, he]

/-- A turn at a variable that the table depends on brings it to the next position and records it; what stood there is a variable
that was passed over, if it is another. -/
theorem ScanDone.record {e : SupEntry} (he : e.toNat = m) (hv : acc.1.hasVar m = true) :
    ScanDone t (m + 1) (acc.1.swap acc.2.length m, acc.2 ++ [e]) where
  sorted := by
    rw [List.map_append, List.map_singleton, List.pairwise_append]
    refine ⟨hdone.sorted, List.pairwise_singleton _ _, fun v hmem w hw => ?_⟩
    obtain ⟨x, hx, rfl⟩ := List.mem_map.1 hmem
    rw [List.mem_singleton.1 hw, he]
    exact hkept.entries x hx
  support v hlt := by
    rw [List.map_append, List.map_singleton, he, List.mem_append, List.mem_singleton]
    obtain hlt | rfl := Nat.lt_succ_iff_lt_or_eq.1 hlt
    · rw [← hdone.support v hlt, or_iff_left (by omega)]
    · exact iff_of_true (.inr rfl) ((hdone.high v le_rfl hm).symm.trans hv)
  low v hlt := by
    rw [List.length_append, List.length_singleton]
    exact hdone.low_swap hkept hm hv hlt
  high v hge hlt := by
    have hlen := hkept.length
    rw [hkept.hasVar_swap hm hlt, Equiv.swap_apply_of_ne_of_ne (by omega) (by omega), hdone.high v (by omega) hlt]
  role _ _ := hdone.role_swap hkept hm he
  ones := by
    have hn := hkept.arity
    have hlen := hkept.length
    exact (Table.ones_swap hkept.wf (by omega) (by omega)).trans hdone.ones

theorem minBaseTurn_scanDone (hn8 : t.n ≤ 2 ^ 8) : ScanDone t (m + 1) (minBaseTurn acc m) := by
  by_cases hv : acc.1.hasVar m = true
  · rw [minBaseTurn_of_hasVar hkept.length hv]
    exact hdone.record hkept hm ((BitVec.toNat_ofNat m 8).trans (Nat.mod_eq_of_lt (by omega))) hv
  · rw [minBaseTurn_of_not_hasVar hv]
    exact hdone.passOver hkept hm (Bool.eq_false_iff.2 hv)

end

theorem Table.minBase_scanDone {t : Table} (h : t.wf = true) (hn8 : t.n ≤ 2 ^ 8) : ScanDone t t.n t.minBase :=
  Table.minBase_induction h (scanDone_start t) fun _ _ hm hkept hdone => minBaseTurn_scanDone hkept hdone hm hn8

/-! ### The command -/

/-- Settles O42: the invariant of the scan at its end, where no index is left; the bits above the list repeat because the new
table depends on no variable there. -/
theorem minbaseiMinimisesTheSupport : Obligations.MinbaseiMinimisesTheSupport := by
  intro s d tb hready hlive
  have htb := table_wf_of_ready hready hlive
  have hn := arity_le_of_ready hready hlive
  have hkept := Table.minBase_kept htb
  have hdone := Table.minBase_scanDone htb (by omega)
  have harity := hkept.arity
  have hlen := hkept.length
  have hdep : ∀ v, v < tb.minBase.1.n → (tb.minBase.1.Dep v ↔ v < tb.minBase.2.length) := fun v hv => by
    rw [← Table.hasVar_iff hkept.wf hv, hdone.low v (harity ▸ hv)]
  refine ⟨_, tb.minBase.1, exec_minbasei_of_ready hready hlive, slot_setTable_same (lt_length_of_live hlive) _, harity,
    hkept.wf, hdone.sorted, fun v => ?_, zext64_toNat (by omega), hdep, fun k hk => ?_, fun k k' hk hk' hentries => ?_, hdone.ones,
    rfl, ⟨rfl, rfl, rfl, rfl, rfl, rfl, rfl⟩, fun e he => slotSame_of_slot (slot_setTable_other s he _)⟩
  · refine ⟨fun hmem => ?_, fun ⟨hv, hvdep⟩ => (hdone.support v hv).2 ((Table.hasVar_iff htb hv).2 hvdep)⟩
    obtain ⟨x, hx, rfl⟩ := List.mem_map.1 hmem
    have hv := hkept.entries x hx
    exact ⟨hv, (Table.hasVar_iff htb hv).1 ((hdone.support _ hv).1 hmem)⟩
  · refine Table.bit_mod_two_pow_eq hkept.wf (hlen.trans_eq harity.symm) (fun v hle hv => ?_) hk
    rw [Bool.eq_false_iff, ne_eq, hdone.low v (harity ▸ hv)]
    exact Nat.not_lt.2 hle
  · exact hdone.role k k' (harity ▸ hk) hk' hentries fun q hq => by
      rw [testBit_of_lt_two_pow hk' hq, testBit_of_lt_two_pow hk (harity.trans_le hq)]

end Sys2Proof.Machine
end
